-- ==== Sys2Proof/Word.lean ====
section
/-! DEFINITION. The two widths of the block: bytes of its memories and 32-bit words of its registers and bus
(spec 10_state.md R22, R30; 00_scope.md R12, R13). All values are unsigned. -/

namespace Sys2Proof

/-- One byte of PIX, GLY or FRM (R12). -/
abbrev Byte := BitVec 8

/-- A register, a command word or the data of a bus access (R22, R60, R90). -/
abbrev Word := BitVec 32

end Sys2Proof
end

