-- ==== Sys2Proof/Config.lean ====
section
/-! DEFINITION. The fixed parameters of the block (spec 00_scope.md R9), its open parameters (R10) and its free values.
An open parameter and a free value are constants with no body: nothing can be proved of which value they have. -/

namespace Sys2Proof.Config

/-! Parameters fixed by the source (R9). -/

/-- IMAGE_W. -/
def imageW : Nat := 16
/-- IMAGE_H. -/
def imageH : Nat := 20
/-- BPP, bytes per pixel. -/
def bpp : Nat := 4
/-- RED_OFS, the byte offset of the red channel inside a pixel. -/
def redOfs : Nat := 0
/-- GRID_COLS, cells per grid row. -/
def gridCols : Nat := 4
/-- GRID_ROWS, cells per grid column. -/
def gridRows : Nat := 4
/-- CELL_W, cell width in pixels. -/
def cellW : Nat := 4
/-- CELL_H, cell height in pixels. -/
def cellH : Nat := 5
/-- NGLYPH, glyphs in a collection. -/
def nGlyph : Nat := 16
/-- GLYPH_BYTES, bytes per glyph. -/
def glyphBytes : Nat := 5
/-- FRAME_BYTES, bytes in an encoded frame. -/
def frameBytes : Nat := 80
/-- PIX_BYTES, bytes in the pixel buffer. -/
def pixBytes : Nat := 1280
/-- INK_THRESHOLD: a pixel is ink when its red byte is below this. -/
def inkThreshold : Nat := 128

/-! Open parameters (R10). -/

/-- Which 4096-byte page the platform gives the window (R67). Log entry 10. -/
opaque fondantPage : Nat

/-- FONDANT_BASE, a multiple of 4096 (R67). -/
def fondantBase : Nat := 4096 * fondantPage

/-- The bus address of a window offset (R67, R98). -/
def busAddress (ofs : BitVec 12) : Nat := fondantBase + ofs.toNat

/-- The window offset of a bus address, if the address lies in the window (R67). -/
def windowOffset (addr : Nat) : Option (BitVec 12) :=
  if fondantBase ≤ addr ∧ addr < fondantBase + 4096 then some (BitVec.ofNat 12 (addr - fondantBase)) else none

/-- LATENCY: how many steps pass between the issue that took the given free-value index and the completion step
(R198, R199: finite, no bound, may differ from command to command). Log entry 2. -/
opaque latency : Nat → Nat

/-! Free values: `draw()` of R14, R38. Applied to the counter `draws` of the state, each index used once. Log entry 3. -/

/-- An 8-bit value under no law. -/
opaque freeByte : Nat → Byte

/-- A 32-bit value under no law. -/
opaque freeWord : Nat → Word

/-- A bit under no law. -/
opaque freeBit : Nat → Bool

end Sys2Proof.Config
end

