-- ==== Sys2Proof/Syntax.lean ====
section
/-! DEFINITION. The commands of the block (spec 30_encoding.md R91), the values a host puts on the bus ports
(20_memory.md R60) and the lines of a host program (30_encoding.md R98). -/

namespace Sys2Proof

/-- The commands, one constructor per row of the opcode table. A command word has no operand field (R92): every
operand is fixed state, so no constructor has an argument. -/
inductive Instr where
  | extract
  | encode
  | decode
deriving DecidableEq, Repr

/-- The widths of the host notation's accesses, `W8`/`R8`, `W16`/`R16`, `W32`/`R32` (R98). -/
inductive Width where
  | byte
  | half
  | word
deriving DecidableEq, Repr

/-- The input ports of one presented bus access (R60): `bus_we`, `bus_size`, `bus_addr`, `bus_wdata`.
`bus_size = 3` can be presented, and is refused. -/
structure BusReq where
  we    : Bool
  size  : BitVec 2
  addr  : BitVec 12
  wdata : Word
deriving DecidableEq, Repr

/-- A line of a host program (R98, R99). Temporaries and labels are named by numbers. -/
inductive HostLine where
  /-- `W8`/`W16`/`W32 ofs, v`. -/
  | write (n : Width) (ofs : BitVec 12) (v : Word)
  /-- `R8`/`R16`/`R32 ofs -> t`. -/
  | read (n : Width) (ofs : BitVec 12) (t : Nat)
  /-- An access given by its port values; the only line that can present `bus_size = 3` (R60). -/
  | ports (r : BusReq)
  /-- `label:`, a place in the program. -/
  | label (l : Nat)
  /-- `BNE t, mask, v, label`: go to the label if `(t & mask) != v`. -/
  | bne (t : Nat) (mask v : Word) (l : Nat)
  /-- `CHECK t, v`: the host asserts `t = v` (R99). -/
  | check (t : Nat) (v : Word)
  /-- The platform drives rst_n low and high again (70_reset_and_hazards.md R190). Not a line of R98's notation:
  it stands among the host's lines to say when the reset falls (DESIGN CHOICE, log entry 1). -/
  | platformReset
deriving DecidableEq, Repr

end Sys2Proof
end

