-- ==== Sys2Proof/WellFormed.lean ====
section
/-! DEFINITION. Which terms of the syntax the notation allows. A command carries no operand (spec 30_encoding.md R92), so
every command is well formed; a host program must resolve its labels and may not define one twice (R98), and a FILL's
length and offset are multiples of 4 (R99) and it ends inside the window (log entry 20). -/

namespace Sys2Proof

/-- No command has a field that could be out of range (R92). -/
def Instr.wf : Instr → Bool
  | .extract => true
  | .encode => true
  | .decode => true

/-- A BNE names a label that the program has (R98). -/
def HostLine.resolves (prog : List HostLine) : HostLine → Bool
  | .bne _ _ _ l => prog.contains (.label l)
  | .write _ _ _ => true
  | .read _ _ _ => true
  | .ports _ => true
  | .label _ => true
  | .check _ _ => true
  | .platformReset => true

/-- The labels a program defines, in order. -/
def labelsOf : List HostLine → List Nat
  | [] => []
  | .label l :: rest => l :: labelsOf rest
  | .write _ _ _ :: rest => labelsOf rest
  | .read _ _ _ :: rest => labelsOf rest
  | .ports _ :: rest => labelsOf rest
  | .bne _ _ _ _ :: rest => labelsOf rest
  | .check _ _ :: rest => labelsOf rest
  | .platformReset :: rest => labelsOf rest

/-- A host program whose branches all have exactly one place to go (R98). -/
def progWf (prog : List HostLine) : Bool :=
  prog.all (HostLine.resolves prog) && decide (labelsOf prog).Nodup

/-- The side condition of `FILL ofs, n, b` (R99): `n` a multiple of 4, `ofs` 4-aligned. That it also has to end inside the
4096-byte window is the model's: the spec does not say what a line past offset 0xFFF is (DESIGN CHOICE, safe: log entry 20). -/
def fillWf (ofs : BitVec 12) (n : Nat) : Bool :=
  n % 4 == 0 && ofs.toNat % 4 == 0 && decide (ofs.toNat + n ≤ 4096)

end Sys2Proof
end

