-- ==== Sys2Proof/Decode.lean ====
section
/-! DEFINITION. The command decoder and encoder (spec 30_encoding.md R90-R97), the byte lanes a command word crosses the
bus in (20_memory.md R61), and the bus port values that encode a line of host notation (30_encoding.md R98). -/

namespace Sys2Proof

/-- Why a word is reserved (R95). The three classes all end alike, in ILLEGAL_COMMAND. -/
inductive ReservedWord where
  /-- RSV, bits 31:8, is not zero, whatever OP is. -/
  | rsvNotZero
  /-- OP = 0x00 with RSV = 0: the word 0x00000000, which is no NOP (R97). -/
  | opZero
  /-- OP in 0x04 to 0xFF with RSV = 0. -/
  | opUnassigned
deriving DecidableEq, Repr

/-- Why bytes give no command: the word is reserved, or fewer than four bytes are there (R94 knows one length). -/
inductive DecodeError where
  | reserved (why : ReservedWord)
  | short
deriving DecidableEq, Repr

/-- OP, bits 7:0 of a command word (R90). -/
def opField (w : Word) : BitVec 8 := w.extractLsb' 0 8

/-- RSV, bits 31:8 of a command word (R90). -/
def rsvField (w : Word) : BitVec 24 := w.extractLsb' 8 24

/-- The class of a word that is no command (R95). -/
def reservedClass (w : Word) : ReservedWord :=
  if rsvField w ≠ 0 then .rsvNotZero else if opField w = 0 then .opZero else .opUnassigned

/-- `decode_cmd` (R93): an exact match on all 32 bits. -/
def decodeCmd (w : Word) : Except ReservedWord Instr :=
  if w = 0x00000001#32 then .ok .extract
  else if w = 0x00000002#32 then .ok .encode
  else if w = 0x00000003#32 then .ok .decode
  else .error (reservedClass w)

/-- The four bytes of a word at rising offsets, little-endian (R61). -/
def wordBytes (w : Word) : List Byte :=
  [w.extractLsb' 0 8, w.extractLsb' 8 8, w.extractLsb' 16 8, w.extractLsb' 24 8]

/-- The word whose bytes, from the lowest offset up, are the four given (R61). -/
def wordOfBytes (b0 b1 b2 b3 : Byte) : Word := b3 ++ b2 ++ b1 ++ b0

/-- The command that the first four bytes carry, with the bytes after them. -/
def decodeBytes : List Byte → Except DecodeError (Instr × List Byte)
  | b0 :: b1 :: b2 :: b3 :: rest =>
    match decodeCmd (wordOfBytes b0 b1 b2 b3) with
    | .ok i => .ok (i, rest)
    | .error why => .error (.reserved why)
  | _ => .error .short

/-- The word of a command (R91). -/
def encode : Instr → Word
  | .extract => 0x00000001#32
  | .encode => 0x00000002#32
  | .decode => 0x00000003#32

/-- The bytes of a command's word (R61, R91). -/
def encodeBytes (i : Instr) : List Byte := wordBytes (encode i)

/-- The word whose low `nbits` bits are `w`'s and whose other bits are 0. -/
def tableWord (nbits w : Nat) : Word := BitVec.ofNat 32 (w % 2 ^ nbits)

/-- What the decoder reads from an instruction whose bits are `w`, numbered as the opcode table numbers them. -/
def decodeTableWord (nbits w : Nat) : Option Instr :=
  match decodeBytes (wordBytes (tableWord nbits w)) with
  | .ok p => some p.1
  | .error _ => none

/-- The number of bytes of an access (R98). -/
def Width.bytes : Width → Nat
  | .byte => 1
  | .half => 2
  | .word => 4

/-- The `bus_size` of an access (R60, R98). -/
def Width.sizeCode : Width → BitVec 2
  | .byte => 0
  | .half => 1
  | .word => 2

/-- The low `n` bytes of a word, the bytes above them 0. -/
def lowBytes (n : Nat) (v : Word) : Word := (v.setWidth (8 * n)).setWidth 32

/-- The bit position of the byte lane an offset addresses: lane `ofs mod 4` (R98). -/
def laneShift (ofs : BitVec 12) : Nat := 8 * (ofs.toNat % 4)

/-- `bus_wdata` of `W8`/`W16`/`W32 ofs, v` (R98): a byte in lane `ofs mod 4`, a half word in that lane and the next, a word as
it is. The other lanes are driven 0, and there is no lane 4 for the second byte of a W16 at `ofs mod 4 = 3`, which is refused
(DESIGN CHOICE, safe: log entry 21). -/
def writeLanes (n : Width) (ofs : BitVec 12) (v : Word) : Word :=
  match n with
  | .byte => lowBytes 1 v <<< laneShift ofs
  | .half => lowBytes 2 v <<< laneShift ofs
  | .word => v

/-- The port values of `W8`/`W16`/`W32 ofs, v` (R98). -/
def writeReq (n : Width) (ofs : BitVec 12) (v : Word) : BusReq :=
  { we := true, size := n.sizeCode, addr := ofs, wdata := writeLanes n ofs v }

/-- The port values of `R8`/`R16`/`R32 ofs` (R98). No rule reads `bus_wdata` of a read; it is driven 0 (DESIGN CHOICE, safe: log
entry 21). -/
def readReq (n : Width) (ofs : BitVec 12) : BusReq :=
  { we := false, size := n.sizeCode, addr := ofs, wdata := 0 }

/-- The encoding of a line: the port values of the access it presents, none for a line that makes no bus access (R98, R99). -/
def HostLine.request : HostLine → Option BusReq
  | .write n ofs v => some (writeReq n ofs v)
  | .read n ofs _ => some (readReq n ofs)
  | .ports r => some r
  | .label _ => none
  | .bne _ _ _ _ => none
  | .check _ _ => none
  | .platformReset => none

end Sys2Proof
end

