-- ==== Sys2Proof/Machine/State.lean ====
section
/-! DEFINITION. The state of one fondant glyph block with the host that drives it (spec 10_state.md R22-R40,
20_memory.md R60, R66), the reasons a run can stop, and the state after reset. -/

namespace Sys2Proof.Machine

/-- The error kinds of a command (60_exceptions.md R161). They are typed results, not faults (R174).
`serializationFault` is named by the spec and raised by nothing (41_codec.md R142). -/
inductive ErrorKind where
  | imageDecodeFailure
  | invalidSize
  | conversionFailure
  | schemaMismatch
  | serializationFault
  | illegalCommand
deriving DecidableEq, Repr

/-- The fields of STATUS (R24). The reserved bits are no storage: they read 0 (R39). -/
structure Status where
  busy    : Bool
  done    : Bool
  errcode : BitVec 4
  hinib   : Bool
  overrun : Bool
  hazard  : Bool
deriving DecidableEq, Repr

/-- The faults of a run (R174: the two there are). Both are recorded in the state and never cleared. -/
inductive Fault where
  /-- A refused bus access, with its offset and `bus_size` (R66). Recorded by the access; answered by `step` once the
  block is idle, since what the host does on bus_err is the platform's. Safe: the run gets no further meaning. -/
  | busError (ofs : BitVec 12) (size : BitVec 2)
  /-- A host write while BUSY = 1 to an offset other than CMD and STATUS, with its offset (R203). Recorded by the write and
  never answered by `step`: the spec says how the run goes on. Safe: such a run is never a finished one. -/
  | hostHazard (ofs : BitVec 12)
deriving DecidableEq, Repr

/-- Why the model has no meaning to give. -/
inductive Refusal where
  /-- An arm of `exec` that has no meaning. Safe. No arm raises it: every command has its meaning. -/
  | notModelled (mnemonic : String)
deriving DecidableEq, Repr

/-- The output ports after the last access (R60): `bus_rdata`, absent where the access gives no data, and `bus_err`. -/
structure BusResp where
  rdata : Option Word
  err   : Bool
deriving DecidableEq, Repr

/-- The host agent (R11, R98): its program and place in it, its temporaries (strictly rising by number, written ones
only), whether a CHECK has failed (R99), and the refused access it stopped at, if any (R66). -/
structure HostAgent where
  prog        : List HostLine
  pos         : Nat
  temps       : List (Nat × Word)
  checkFailed : Bool
  halted      : Option Fault
deriving DecidableEq, Repr

/-- The memories PIX, GLY and FRM as one table by window offset (R43). -/
abbrev Memory := List Host.Cell

/-- The whole state. `mem` holds the written bytes of PIX, GLY and FRM by window offset, strictly rising; an unlisted
byte is unwritten and has no value (R38). `dirty`, `delay`, `draws` and `host` are the model's own (log entries 1-3, 5). -/
structure State where
  /-- STATUS (R24). -/
  status   : Status
  /-- IMG_W (R26). -/
  imgW     : Word
  /-- IMG_H (R27). -/
  imgH     : Word
  /-- SRC_FLAGS (R28). -/
  srcFlags : Word
  /-- FRM_LEN (R29). -/
  frmLen   : Word
  /-- LATCH (R36). -/
  latch    : Word
  /-- PIX, GLY and FRM (R30-R32). -/
  mem      : Memory
  /-- A hazardous write fell into the present busy window (R203). -/
  dirty    : Bool
  /-- Steps left before the completion step (LATENCY, R198). -/
  delay    : Nat
  /-- The next free-value index (R14). -/
  draws    : Nat
  /-- The host agent. -/
  host     : HostAgent
  /-- The output ports (R60). -/
  bus      : BusResp
  /-- The recorded faults of the run (R66, R203), oldest first, each once. -/
  faults   : List Fault
deriving DecidableEq, Repr

/-- STATUS after reset (R40). -/
def Status.reset : Status :=
  { busy := false, done := false, errcode := 0, hinib := false, overrun := false, hazard := false }

/-- A host with no program: it has no access to make. -/
def HostAgent.idle : HostAgent :=
  { prog := [], pos := 0, temps := [], checkFailed := false, halted := none }

/-- The machine right after reset (R40, R192): every register 0, every byte unwritten, no command in flight. The spec gives
LATCH no reset value; 0 is the model's (DESIGN CHOICE, log entry 4), as are the values of the model's own fields and of the
output ports (log entry 12). -/
def State.reset : State :=
  { status := Status.reset, imgW := 0, imgH := 0, srcFlags := 0, frmLen := 0, latch := 0, mem := [],
    dirty := false, delay := 0, draws := 0, host := HostAgent.idle, bus := { rdata := none, err := false }, faults := [] }

end Sys2Proof.Machine
end

