-- ==== Sys2Proof/Machine/Flags.lean ====
section
/-! DEFINITION. Every flag the block has: the fields of STATUS and how issue, completion and hazards write them
(spec 10_state.md R24, R34, R35, R37), the error codes (60_exceptions.md R161) and the verdict bits of SRC_FLAGS (R28). -/

namespace Sys2Proof.Machine

/-- The code of an error kind (R161). Code 0 is success. -/
def ErrorKind.code : ErrorKind → BitVec 4
  | .imageDecodeFailure => 1
  | .invalidSize => 2
  | .conversionFailure => 3
  | .schemaMismatch => 4
  | .serializationFault => 5
  | .illegalCommand => 6

/-- The 32-bit value of STATUS (R24): HAZARD 17, OVERRUN 16, HINIB 8, ERRCODE 7:4, DONE 1, BUSY 0, all else 0. -/
def Status.word (st : Status) : Word :=
  0#14 ++ BitVec.ofBool st.hazard ++ BitVec.ofBool st.overrun ++ 0#7 ++ BitVec.ofBool st.hinib ++ st.errcode ++ 0#2 ++
    BitVec.ofBool st.done ++ BitVec.ofBool st.busy

/-- What an accepted issue writes (R34). -/
def Status.issued (st : Status) : Status :=
  { st with busy := true, done := false, errcode := 0, hinib := false }

/-- What every completion writes (R35), with the outcome's code (R160). -/
def Status.completed (st : Status) (code : BitVec 4) : Status :=
  { st with busy := false, done := true, errcode := code }

/-- A dropped CMD write sets OVERRUN (R34). -/
def Status.overrunSet (st : Status) : Status := { st with overrun := true }

/-- A write while busy sets HAZARD (R69). -/
def Status.hazardSet (st : Status) : Status := { st with hazard := true }

/-- DECODE writes HINIB (R145, R147). -/
def Status.withHinib (st : Status) (b : Bool) : Status := { st with hinib := b }

/-- SRC_FLAGS keeps bits 1:0 of what is written, and reads them (R28, R68, R69). -/
def srcFlagsMask (v : Word) : Word := (v.setWidth 2).setWidth 32

/-- SRC_FLAGS.CONTAINER_OK, bit 0 (R28). -/
def State.containerOk (s : State) : Bool := s.srcFlags.getLsbD 0

/-- SRC_FLAGS.RGBA8_OK, bit 1 (R28). -/
def State.rgba8Ok (s : State) : Bool := s.srcFlags.getLsbD 1

/-- DECODE's high-nibble test: some of the first `n` bytes of `f` is above 0x0F (R147). -/
def anyHighNibble (f : Nat → Byte) : Nat → Bool
  | 0 => false
  | n + 1 => anyHighNibble f n || decide (0x0F#8 < f n)

end Sys2Proof.Machine
end

