-- ==== Sys2Proof/Machine/Ops.lean ====
section
/-! DEFINITION. The named operations over memory and registers: sparse cells in canonical form, the bytes of the block with
their free values (spec 10_state.md R38), little-endian access (20_memory.md R61), issue (10_state.md R34), raising an
error (60_exceptions.md R166), completion (10_state.md R35) and the reset event (70_reset_and_hazards.md R190). -/

namespace Sys2Proof.Machine

/-! Cells: a sparse table by key, strictly rising, written entries only. -/

/-- The value of a key, if it has been written. -/
def cellsRead {α : Type} : List (Nat × α) → Nat → Option α
  | [], _ => none
  | (k, v) :: rest, a => if a = k then some v else cellsRead rest a

/-- Write a key, keeping the order. -/
def cellsWrite {α : Type} : List (Nat × α) → Nat → α → List (Nat × α)
  | [], a, v => [(a, v)]
  | (k, x) :: rest, a, v =>
    if a < k then (a, v) :: (k, x) :: rest
    else if a = k then (a, v) :: rest
    else (k, x) :: cellsWrite rest a v

/-- Write `f 0 .. f (n-1)` at `base .. base + n - 1`. -/
def cellsFill {α : Type} (m : List (Nat × α)) (base : Nat) (f : Nat → α) : Nat → List (Nat × α)
  | 0 => m
  | n + 1 => cellsWrite (cellsFill m base f n) (base + n) (f n)

/-! The memories. -/

/-- What an unlisted byte reads as: no value, it is unwritten (R38). A read of it takes a free value, see `State.byteAt`. -/
def Memory.unlisted : Option Byte := none

/-- The stored value of a byte, `Memory.unlisted` where nothing has written it. -/
def Memory.read (m : Memory) (a : Nat) : Option Byte := cellsRead m a

/-- Store a byte: it stops being unwritten (R38). -/
def Memory.write (m : Memory) (a : Nat) (b : Byte) : Memory := cellsWrite m a b

/-- Store `n` bytes from `base` up. -/
def Memory.fill (m : Memory) (base : Nat) (f : Nat → Byte) (n : Nat) : Memory := cellsFill m base f n

/-! Named updates of the state. -/

/-- The state with STATUS replaced. -/
def State.setStatus (s : State) (st : Status) : State := { s with status := st }
/-- The state with IMG_W replaced. -/
def State.setImgW (s : State) (v : Word) : State := { s with imgW := v }
/-- The state with IMG_H replaced. -/
def State.setImgH (s : State) (v : Word) : State := { s with imgH := v }
/-- The state with SRC_FLAGS replaced. -/
def State.setSrcFlags (s : State) (v : Word) : State := { s with srcFlags := v }
/-- The state with FRM_LEN replaced. -/
def State.setFrmLen (s : State) (v : Word) : State := { s with frmLen := v }
/-- The state with LATCH replaced. -/
def State.setLatch (s : State) (v : Word) : State := { s with latch := v }
/-- The state with PIX, GLY and FRM replaced. -/
def State.setMem (s : State) (m : Memory) : State := { s with mem := m }
/-- The state with the mark of a spoiled busy window replaced. -/
def State.setDirty (s : State) (b : Bool) : State := { s with dirty := b }
/-- The state with the steps left before the completion replaced. -/
def State.setDelay (s : State) (n : Nat) : State := { s with delay := n }
/-- The state with the host agent replaced. -/
def State.setHost (s : State) (h : HostAgent) : State := { s with host := h }
/-- The state with the output ports replaced. -/
def State.setBus (s : State) (r : BusResp) : State := { s with bus := r }

/-- Use up `n` free-value indices. -/
def State.advance (s : State) (n : Nat) : State := { s with draws := s.draws + n }

/-- Record a fault of the run; it is never cleared (R66, R203). A fault already recorded is recorded once. -/
def State.recordFault (s : State) (f : Fault) : State :=
  if f ∈ s.faults then s else { s with faults := s.faults ++ [f] }

/-! Bytes and little-endian values. -/

/-- The byte at offset `a`; an unwritten byte gives the free value with index `j` of those the step reserves (R38, R72). -/
def State.byteAt (s : State) (a j : Nat) : Byte := (s.mem.read a).getD (Config.freeByte (s.draws + j))

/-- `MemRead(ofs, n)` (R61): byte `ofs + j` in bits `8j+7 : 8j`, the bytes above the width 0. -/
def State.memRead (s : State) (ofs : Nat) : Nat → Word
  | 0 => 0
  | n + 1 => s.memRead ofs n ||| ((s.byteAt (ofs + n) n).setWidth 32 <<< (8 * n))

/-- Byte `j` of a value: bits `8j+7 : 8j` (R61). -/
def byteOf (v : Word) (j : Nat) : Byte := (v >>> (8 * j)).setWidth 8

/-- `MemWrite(ofs, n, v)` (R61). -/
def State.memWrite (s : State) (ofs n : Nat) (v : Word) : State :=
  s.setMem (s.mem.fill ofs (byteOf v) n)

/-! Issue, error and completion. -/

/-- Issue of the word `w` (R34): dropped with OVERRUN while busy, else latched, whatever the word is. The busy window that
starts is clean, and LATENCY is a free number of steps (R198). -/
def State.issue (s : State) (w : Word) : State :=
  if s.status.busy then s.setStatus s.status.overrunSet
  else ((((s.setStatus s.status.issued).setLatch w).setDirty false).setDelay (Config.latency s.draws)).advance 1

/-- Every completion: BUSY <- 0, DONE <- 1 (R35), with ERRCODE the outcome's code (R160). -/
def State.complete (s : State) (code : BitVec 4) : State := s.setStatus (s.status.completed code)

/-- `raise E` (R166): the code and the completion, and nothing else. No handler, nothing saved. -/
def State.raise (s : State) (e : ErrorKind) : State := s.complete e.code

/-- What a hazardous write leaves of STATUS at completion (R203): the code given, which the command can produce, and HINIB
any bit. Reserves the free values of one completion. -/
def State.completeHazard (s : State) (code : BitVec 4) : State :=
  ((s.complete code).setStatus ((s.status.completed code).withHinib (Config.freeBit s.draws))).advance 80

/-- The reset event (R190, R40): registers and STATUS to 0, every byte unwritten, LATCH unspecified (a free value), a command in
flight abandoned (R191). The host, the output ports, the recorded faults and the free-value index are not the block's
registers and stay (DEDUCED, safe: log entry 14). -/
def State.resetEvent (s : State) : State :=
  { s with
    status := Status.reset, imgW := 0, imgH := 0, srcFlags := 0, frmLen := 0, latch := Config.freeWord s.draws, mem := [],
    dirty := false, delay := 0, draws := s.draws + 1 }

/-- One step nearer to the completion step, while a command is in flight (R198). -/
def State.tick (s : State) : State := if s.status.busy then s.setDelay (s.delay - 1) else s

end Sys2Proof.Machine
end

