-- ==== Sys2Proof/Machine/Operands.lean ====
section
/-! DEFINITION. What an access or a command can name: the regions of the window (spec 20_memory.md R67), its registers
(10_state.md R22), the access check (20_memory.md R65), and the fixed operands of the commands (30_encoding.md R92). -/

namespace Sys2Proof.Machine

/-- The three memories (R30-R32). -/
inductive Storage where
  | gly
  | frm
  | pix
deriving DecidableEq, Repr

/-- The six registers (R22). -/
inductive Reg where
  | cmd
  | status
  | imgW
  | imgH
  | srcFlags
  | frmLen
deriving DecidableEq, Repr

/-- The regions of the window (R65, R67). -/
inductive Region where
  | reg
  | storage (m : Storage)
  | reserved
deriving DecidableEq, Repr

/-- Why an access is refused, in the order of the checks (R65). All are BusError. -/
inductive BusRefusal where
  /-- `bus_size = 3`. -/
  | badSize
  /-- Not naturally aligned (R64). -/
  | misaligned
  /-- A reserved offset (R39, R67). -/
  | reservedOffset
  /-- A register access of other than 4 bytes (R63). -/
  | registerWidth
deriving DecidableEq, Repr

/-- What an access that passes the check reaches: a register, or `n` bytes of a memory. -/
inductive Target where
  | reg (r : Reg)
  | mem (m : Storage) (n : Nat)
deriving DecidableEq, Repr

/-- The first offset of GLY, FRM, PIX (R67). -/
def glyBase : Nat := 0x100
def frmBase : Nat := 0x200
def pixBase : Nat := 0x800

/-- `region(ofs)` (R65). -/
def region (ofs : Nat) : Region :=
  if ofs ≤ 0x017 then .reg
  else if 0x100 ≤ ofs ∧ ofs ≤ 0x14F then .storage .gly
  else if 0x200 ≤ ofs ∧ ofs ≤ 0x24F then .storage .frm
  else if 0x800 ≤ ofs ∧ ofs ≤ 0xCFF then .storage .pix
  else .reserved

/-- An offset that is a byte of PIX, GLY or FRM. -/
def isStorage (ofs : Nat) : Bool :=
  match region ofs with
  | .storage _ => true
  | .reg => false
  | .reserved => false

/-- The register at a 4-aligned offset of the region REG (R22). -/
def regAt (ofs : Nat) : Reg :=
  if ofs < 0x004 then .cmd
  else if ofs < 0x008 then .status
  else if ofs < 0x00C then .imgW
  else if ofs < 0x010 then .imgH
  else if ofs < 0x014 then .srcFlags
  else .frmLen

/-- The bytes of an access by its `bus_size` (R60), none for the refused one. -/
def sizeBytes (size : BitVec 2) : Option Nat :=
  if size = 0 then some 1 else if size = 1 then some 2 else if size = 2 then some 4 else none

/-- `check(ofs, n)` (R65): the first failing check refuses. -/
def checkAccess (ofs : BitVec 12) (size : BitVec 2) : Except BusRefusal Target :=
  match sizeBytes size with
  | none => .error .badSize
  | some n =>
    if ofs.toNat % n ≠ 0 then .error .misaligned
    else
      match region ofs.toNat with
      | .reserved => .error .reservedOffset
      | .reg => if n ≠ 4 then .error .registerWidth else .ok (.reg (regAt ofs.toNat))
      | .storage m => .ok (.mem m n)

/-- The canonical form of the memories: addresses strictly rising, only bytes of PIX, GLY or FRM, and no entry equal to what
an unlisted byte reads as. -/
abbrev Memory.wf (m : Memory) : Prop :=
  m.Pairwise (fun p q => p.1 < q.1) ∧ (∀ p ∈ m, isStorage p.1 = true) ∧ ∀ p ∈ m, some p.2 ≠ Memory.unlisted

/-! The operands of the commands (R33). An unwritten byte takes its own free value (R38). -/

/-- PIX[k]. The free values are numbered by pixel: EXTRACT reads one byte of each (R113). -/
def State.pixByte (s : State) (k : Nat) : Byte := s.byteAt (pixBase + k) (k / 4)

/-- GLY[k], read by ENCODE. -/
def State.glyByte (s : State) (k : Nat) : Byte := s.byteAt (glyBase + k) k

/-- FRM[k], read by DECODE. -/
def State.frmByte (s : State) (k : Nat) : Byte := s.byteAt (frmBase + k) k

end Sys2Proof.Machine
end

