-- ==== Sys2Proof/Machine/Codec.lean ====
section
/-! DEFINITION. The fixed-layout binary serializer: the frame layout and the ENCODE and DECODE commands
(spec 41_codec.md). -/

namespace Sys2Proof.Machine

/-- Byte `k` of GLY when it holds the collection `g` (R31). -/
def flatByte (g : Nat → Nat → Byte) (k : Nat) : Byte := g (k / Config.glyphBytes) (k % Config.glyphBytes)

/-- Byte `k` of the frame of a collection `g`, `g i r` being row byte `r` of glyph `i` (R140). -/
def encodeFn (g : Nat → Nat → Byte) (k : Nat) : Byte := g (k / Config.glyphBytes) (k % Config.glyphBytes)

/-- The collection of a frame `f` of `len` bytes, or SCHEMA_MISMATCH (R144). The length is the only check (R146). -/
def decodeFn (f : Nat → Byte) (len : Word) : Except ErrorKind (Nat → Nat → Byte) :=
  if len ≠ 80 then .error .schemaMismatch else .ok (fun i r => f (Config.glyphBytes * i + r))

/-- The collection GLY holds (R31). -/
def State.collection (s : State) (i r : Nat) : Byte := s.glyByte (Config.glyphBytes * i + r)

/-- FRM written from GLY, FRM_LEN <- 80. The 80 reads reserve 80 free values. -/
def State.encodeFrame (s : State) : State :=
  (((s.setMem (s.mem.fill frmBase (encodeFn s.collection) Config.frameBytes)).setFrmLen 80).advance 80).complete 0

/-- ENCODE after a hazardous write (R203): FRM and FRM_LEN any value, ERRCODE the only code ENCODE has. -/
def State.encodeHazard (s : State) : State :=
  ((s.setMem (s.mem.fill frmBase (fun k => Config.freeByte (s.draws + k)) Config.frameBytes)).setFrmLen
    (Config.freeWord s.draws)).completeHazard 0

/-- ENCODE, its whole completion step (R141, R35). It never fails (R142). -/
def execEncode (s : State) : Host.Outcome State Fault Refusal :=
  if s.dirty then .next s.encodeHazard else .next s.encodeFrame

/-- GLY written with the collection `g`, HINIB the high-nibble test of its 80 bytes (R145, R147). -/
def State.decodeGlyphs (s : State) (g : Nat → Nat → Byte) : State :=
  ((s.setMem (s.mem.fill glyBase (flatByte g) Config.frameBytes)).advance 80).setStatus
    ((s.status.completed 0).withHinib (anyHighNibble (flatByte g) Config.frameBytes))

/-- DECODE after a hazardous write (R203): each byte of GLY any value, ERRCODE 0 or 4. -/
def State.decodeHazard (s : State) : State :=
  (s.setMem (s.mem.fill glyBase (fun k => Config.freeByte (s.draws + k)) Config.frameBytes)).completeHazard
    (if Config.freeBit (s.draws + 1) then ErrorKind.schemaMismatch.code else 0)

/-- DECODE, its whole completion step (R145, R35). -/
def execDecode (s : State) : Host.Outcome State Fault Refusal :=
  if s.dirty then .next s.decodeHazard
  else
    match decodeFn s.frmByte s.frmLen with
    | .error e => .next (s.raise e)
    | .ok g => .next (s.decodeGlyphs g)

end Sys2Proof.Machine
end

