-- ==== Sys2Proof/Machine/Extract.lean ====
section
/-! DEFINITION. The bitmap-grid demultiplexer, the glyph bit-packer and the EXTRACT command (spec 40_extract.md). -/

namespace Sys2Proof.Machine

/-! The demultiplexer. -/

/-- The pixel column of cell column `c` of glyph `i` (R112). -/
def px (i c : Nat) : Nat := Config.cellW * (i % Config.gridCols) + c

/-- The pixel row of cell row `r` of glyph `i` (R112). -/
def py (i r : Nat) : Nat := Config.cellH * (i / Config.gridCols) + r

/-- The flat index of a pixel's red byte (R113). -/
def pixIndex (i r c : Nat) : Nat := (py i r * Config.imageW + px i c) * Config.bpp + Config.redOfs

/-- The glyph a pixel belongs to (R114). -/
def glyphOf (x y : Nat) : Nat := y / Config.cellH * Config.gridCols + x / Config.cellW

/-- The cell row of a pixel (R114). -/
def rowOf (y : Nat) : Nat := y % Config.cellH

/-- The cell column of a pixel (R114). -/
def colOf (x : Nat) : Nat := x % Config.cellW

/-- The bit of the row byte that a pixel decides (R114). -/
def bitOf (x : Nat) : Nat := 3 - x % Config.cellW

/-! The bit-packer. -/

/-- A red byte is ink when it is strictly less than 128 (R115). -/
def ink (v : Byte) : Bool := decide (v.toNat < Config.inkThreshold)

/-- Row byte `r` of glyph `i` of a pixel buffer (R116): column `c` at bit `3 - c`, bits 7:4 zero. -/
def rowByte (pix : Nat → Byte) (i r : Nat) : Byte :=
  0#4 ++ BitVec.ofBool (ink (pix (pixIndex i r 0))) ++ BitVec.ofBool (ink (pix (pixIndex i r 1))) ++
    BitVec.ofBool (ink (pix (pixIndex i r 2))) ++ BitVec.ofBool (ink (pix (pixIndex i r 3)))

/-- Byte `k` of the extracted collection: row `k mod 5` of glyph `k div 5` (R117). -/
def extractFn (pix : Nat → Byte) (k : Nat) : Byte :=
  rowByte pix (k / Config.glyphBytes) (k % Config.glyphBytes)

/-! The command. -/

/-- The checks of EXTRACT in their order (R118, R163). -/
def State.extractCheck (s : State) : Option ErrorKind :=
  if s.containerOk = false then some .imageDecodeFailure
  else if s.imgW ≠ 16 ∨ s.imgH ≠ 20 then some .invalidSize
  else if s.rgba8Ok = false then some .conversionFailure
  else none

/-- GLY written from PIX. The 320 red reads reserve 320 free values. -/
def State.extractGlyphs (s : State) : State :=
  ((s.setMem (s.mem.fill glyBase (extractFn s.pixByte) Config.frameBytes)).advance 320).complete 0

/-- EXTRACT after a hazardous write (R203): each byte of GLY any value, ERRCODE any of 0, 1, 2, 3. -/
def State.extractHazard (s : State) : State :=
  (s.setMem (s.mem.fill glyBase (fun k => Config.freeByte (s.draws + k)) Config.frameBytes)).completeHazard
    (((Config.freeWord s.draws).setWidth 2).setWidth 4)

/-- EXTRACT, its whole completion step (R118, R35). -/
def execExtract (s : State) : Host.Outcome State Fault Refusal :=
  if s.dirty then .next s.extractHazard
  else
    match s.extractCheck with
    | some e => .next (s.raise e)
    | none => .next s.extractGlyphs

end Sys2Proof.Machine
end

