-- ==== Sys2Proof/Machine/Reserved.lean ====
section
/-! DEFINITION. The completion of a reserved command word (spec 30_encoding.md R96). -/

namespace Sys2Proof.Machine

/-- ILLEGAL_COMMAND, always; nothing but STATUS changes (R96). After a hazardous write ERRCODE is still the only code such a
word has, and HINIB is any bit (R203; DEDUCED, safe: log entry 6). -/
def State.completeReserved (s : State) : State :=
  if s.dirty then s.completeHazard ErrorKind.illegalCommand.code else s.raise .illegalCommand

end Sys2Proof.Machine
end

