-- ==== Sys2Proof/Machine/Engine.lean ====
section
/-! DEFINITION. The engine agent: its one step (spec 10_state.md R35). -/

namespace Sys2Proof.Machine

/-- The completion step is due: a command is in flight and its LATENCY has passed (R35, R198). -/
def State.engineReady (s : State) : Bool := s.status.busy && s.delay == 0

/-- The completion step (R35): decode LATCH and run the command, or complete the reserved word. -/
def engineStep (s : State) : Host.Outcome State Fault Refusal :=
  match decodeCmd s.latch with
  | .ok i => exec i s
  | .error _ => .next s.completeReserved

end Sys2Proof.Machine
end

