-- ==== Sys2Proof/Machine/Bus.lean ====
section
/-! DEFINITION. The block's side of a bus access (spec 20_memory.md R60-R70). -/

namespace Sys2Proof.Machine

/-- The value of a register read (R68). CMD reads 0 (R23); FRM_LEN while BUSY = 1 is under no law (R202). -/
def State.readReg (s : State) : Reg → Word
  | .cmd => 0
  | .status => s.status.word
  | .imgW => s.imgW
  | .imgH => s.imgH
  | .srcFlags => srcFlagsMask s.srcFlags
  | .frmLen => if s.status.busy then Config.freeWord s.draws else s.frmLen

/-- The engine may be writing GLY and FRM while a command is in flight (R68). PIX it only reads. -/
def Storage.engineWrites : Storage → Bool
  | .gly => true
  | .frm => true
  | .pix => false

/-- The value of a read that passed the check (R68). -/
def State.readTarget (s : State) (t : Target) (ofs : Nat) : Word :=
  match t with
  | .reg r => s.readReg r
  | .mem m n => if s.status.busy && m.engineWrites then lowBytes n (Config.freeWord s.draws) else s.memRead ofs n

/-- A write to CMD or STATUS is no hazard (R69). -/
def Target.hazardFree : Target → Bool
  | .reg .cmd => true
  | .reg .status => true
  | .reg .imgW => false
  | .reg .imgH => false
  | .reg .srcFlags => false
  | .reg .frmLen => false
  | .mem _ _ => false

/-- A write while BUSY = 1 to any offset other than CMD and STATUS sets HAZARD, spoils the running command and records a
fault of the run (R69, R203). -/
def State.noteHazard (s : State) (t : Target) (ofs : BitVec 12) : State :=
  if s.status.busy && !t.hazardFree then
    ((s.setStatus s.status.hazardSet).setDirty true).recordFault (.hostHazard ofs)
  else s

/-- The write of a register (R69). STATUS ignores it (R24). -/
def State.writeReg (s : State) (r : Reg) (v : Word) : State :=
  match r with
  | .cmd => s.issue v
  | .status => s
  | .imgW => s.setImgW v
  | .imgH => s.setImgH v
  | .srcFlags => s.setSrcFlags (srcFlagsMask v)
  | .frmLen => s.setFrmLen v

/-- The write of what the access reached. -/
def State.writeTarget (s : State) (t : Target) (ofs : Nat) (v : Word) : State :=
  match t with
  | .reg r => s.writeReg r v
  | .mem _ n => s.memWrite ofs n v

/-- `host_write` after the check (R69): the write takes effect even when it sets HAZARD. -/
def State.hostWrite (s : State) (t : Target) (ofs : BitVec 12) (v : Word) : State :=
  (s.noteHazard t ofs).writeTarget t ofs.toNat v

/-- The value on `bus_wdata`: taken from the byte lanes of the offset (R98). -/
def busValue (r : BusReq) : Word := r.wdata >>> laneShift r.addr

/-- A granted read: the data right-aligned on `bus_rdata`, the bytes above the width 0 (R60). It changes no state of the
block (R68); it reserves four free values. -/
def State.grantRead (s : State) (t : Target) (r : BusReq) : State :=
  (s.setBus { rdata := some (s.readTarget t r.addr.toNat), err := false }).advance 4

/-- A granted write. -/
def State.grantWrite (s : State) (t : Target) (r : BusReq) : State :=
  (s.hostWrite t r.addr (busValue r)).setBus { rdata := none, err := false }

/-- A refused access (R66): no data, `bus_err`, no state of the block changes, and a fault of the run is recorded. -/
def State.refuseAccess (s : State) (r : BusReq) : State :=
  (s.setBus { rdata := none, err := true }).recordFault (.busError r.addr r.size)

/-- One bus access, one atomic step (R71). -/
def State.busAccess (s : State) (r : BusReq) : State :=
  match checkAccess r.addr r.size with
  | .error _ => s.refuseAccess r
  | .ok t => if r.we then s.grantWrite t r else s.grantRead t r

/-- A run of bus accesses, one after the other (R73). -/
def State.busAccesses (s : State) (rs : List BusReq) : State := rs.foldl State.busAccess s

end Sys2Proof.Machine
end

