-- ==== Sys2Proof/Machine/HostAgent.lean ====
section
/-! DEFINITION. The host agent: one line of its program a step (spec 00_scope.md R11, 30_encoding.md R98, R99), and the
pseudo-instructions of the notation with their expansions (R99). -/

namespace Sys2Proof.Machine

/-- Go on to the next line. -/
def HostAgent.next (h : HostAgent) : HostAgent := { h with pos := h.pos + 1 }

/-- The host stops at a refused access: what it does on bus_err is the platform's (R66). -/
def HostAgent.stop (h : HostAgent) (f : Fault) : HostAgent := { h with halted := some f }

/-- The place of a label; past the end where the program has none (such a program is not well formed). -/
def labelPos (prog : List HostLine) (l : Nat) : Nat :=
  (prog.findIdx? (fun x => x == .label l)).getD prog.length

/-- The value of a temporary; one that nothing has read into has any value (DESIGN CHOICE, log entry 11). -/
def State.temp (s : State) (t : Nat) : Word := (cellsRead s.host.temps t).getD (Config.freeWord s.draws)

/-- What the host makes of the answer to an access: it stops on bus_err, else it goes on, with the data read in its
temporary where the line names one. -/
def State.afterAccess (s : State) (r : BusReq) (t : Option Nat) : State :=
  if s.bus.err then s.setHost (s.host.stop (.busError r.addr r.size))
  else
    match t, s.bus.rdata with
    | some k, some v => s.setHost { s.host.next with temps := cellsWrite s.host.temps k v }
    | some _, none => s.setHost s.host.next
    | none, _ => s.setHost s.host.next

/-- An access and the host's reaction to its answer. -/
def State.hostAccess (s : State) (r : BusReq) (t : Option Nat) : State := (s.busAccess r).afterAccess r t

/-- BNE (R98). -/
def State.hostBranch (s : State) (t : Nat) (mask v : Word) (l : Nat) : State :=
  (s.setHost (if s.temp t &&& mask ≠ v then { s.host with pos := labelPos s.host.prog l } else s.host.next)).advance 1

/-- CHECK (R99): a failed assertion is kept in the host; it is no bus access. -/
def State.hostCheck (s : State) (t : Nat) (v : Word) : State :=
  (s.setHost { s.host.next with checkFailed := s.host.checkFailed || s.temp t != v }).advance 1

/-- The platform's reset pulse; the host then goes on with its next line (DESIGN CHOICE, safe: log entry 14). -/
def State.hostReset (s : State) : State := s.resetEvent.setHost s.host.next

/-- One line of the host's program (R98). -/
def State.runLine (s : State) : HostLine → State
  | .write n ofs v => s.hostAccess (writeReq n ofs v) none
  | .read n ofs t => s.hostAccess (readReq n ofs) (some t)
  | .ports r => s.hostAccess r none
  | .label _ => s.setHost s.host.next
  | .bne t mask v l => s.hostBranch t mask v l
  | .check t v => s.hostCheck t v
  | .platformReset => s.hostReset

/-- The host's step. A host that has made its last access leaves the block as it is (R182). A host stopped by a refused
access waits for the engine, and then the run stops with that fault (R66). -/
def hostStep (s : State) : Host.Outcome State Fault Refusal :=
  match s.host.halted with
  | some f => if s.status.busy then .next s else .fault f
  | none =>
    match s.host.prog[s.host.pos]? with
    | none => .next s
    | some line => .next (s.runLine line)

/-- Hand the host a program; the outside world does this, no step of the machine does (DESIGN CHOICE, log entry 9). -/
def State.loadHost (s : State) (prog : List HostLine) : State := s.setHost { HostAgent.idle with prog := prog }

/-! Pseudo-instructions (R99). A WAIT needs a label and a temporary of its own. -/

/-- `EXTRACT`, `ENCODE`, `DECODE`: the write of the command's word to CMD. -/
def commandLine (i : Instr) : HostLine := .write .word 0x000 (Sys2Proof.encode i)

/-- `WAIT`: poll STATUS until BUSY = 0. -/
def waitLines (l t : Nat) : List HostLine := [.label l, .read .word 0x004 t, .bne t 0x1 0x0 l]

/-- `RUN op`. -/
def runLines (i : Instr) (l t : Nat) : List HostLine := commandLine i :: waitLines l t

/-- `FILL ofs, n, b`: n / 4 word writes of the byte in all lanes. An offset is 12 bits, so a line past 0xFFF would wrap to the
window's start; the spec is silent there, the wrap is the model's, and `fillWf` refuses such a FILL (DESIGN CHOICE, unsafe for
the FILLs it refuses: log entry 20). -/
def fillLines (ofs : BitVec 12) (n : Nat) (b : Byte) : List HostLine :=
  (List.range (n / 4)).map fun j => .write .word (ofs + BitVec.ofNat 12 (4 * j)) (b.setWidth 32 * 0x01010101)

end Sys2Proof.Machine
end

