-- ==== Sys2Proof/Machine/Step.lean ====
section
/-! DEFINITION. One step of the machine: the engine's completion step when it is due, else the host's step
(spec 20_memory.md R71, R73; 70_reset_and_hazards.md R198, R199). -/

namespace Sys2Proof.Machine

/-- One step. Both agents' steps are atomic and interleave; the free LATENCY says how many host steps fall between an issue and
its completion, so every interleaving is one of some LATENCY (R172; DEDUCED, safe: log entry 2). -/
def step (s : State) : Host.Outcome State Fault Refusal :=
  if s.engineReady then engineStep s else hostStep s.tick

/-- `s` with the given command word accepted by an issue (R34) whose LATENCY has passed, so that the next step is its
completion step (R35). The block fetches nothing (R21): LATCH is where a command waits to be run. Log entry 9. -/
def State.withFetchWord (s : State) (nbits w : Nat) : State :=
  (((s.setStatus s.status.issued).setLatch (tableWord nbits w)).setDirty false).setDelay 0

end Sys2Proof.Machine
end

