-- ==== Sys2Proof/Safety.lean ====
section
/-! DEFINITION. What counts as a safe and a finished run (spec 70_reset_and_hazards.md R205), and the invariant of the
machine (10_state.md R25, R28, R39; 20_memory.md R67; 70_reset_and_hazards.md R203). -/

namespace Sys2Proof.Machine

/-- No fault of the run is recorded (R66, R203). -/
def State.faultFree (s : State) : Prop := s.faults = []

/-- The host has made its last access and no command is in flight, and no fault is recorded (R205). R205 does not fix when in
time the run ends: the last access counts as made once the host is past the last line of its program, so trailing label, BNE
and CHECK lines run first, and a host that loops on such lines for ever is never finished (DESIGN CHOICE, safe: log entry
22). -/
def State.finished (s : State) : Prop :=
  s.host.prog.length ≤ s.host.pos ∧ s.status.busy = false ∧ s.faultFree

/-- The codes this block produces (R25, R161). -/
def legalCode (c : BitVec 4) : Bool := c == 0 || c == 1 || c == 2 || c == 3 || c == 4 || c == 6

/-- Legal values of STATUS (R25). -/
structure Status.Legal (st : Status) : Prop where
  code      : legalCode st.errcode = true
  exclusive : ¬ (st.busy = true ∧ st.done = true)
  inFlight  : st.busy = true → st.errcode = 0 ∧ st.hinib = false

/-- The memory is in canonical form, STATUS is legal (R25), the reserved bits of SRC_FLAGS are 0 (R39), and a spoiled busy
window shows in HAZARD and in the record of faults (R203). A host that has stopped did so at a recorded refused access (R66),
and its temporaries are in canonical form. -/
structure State.Inv (s : State) : Prop where
  memory   : Memory.wf s.mem
  status   : s.status.Legal
  reserved : s.srcFlags.extractLsb' 2 30 = 0
  spoiled  : s.dirty = true → s.status.hazard = true
  recorded : s.status.hazard = true → ∃ ofs, Fault.hostHazard ofs ∈ s.faults
  stopped  : ∀ f, s.host.halted = some f → f ∈ s.faults ∧ ∃ ofs size, f = .busError ofs size
  temps    : s.host.temps.Pairwise (fun p q => p.1 < q.1)

end Sys2Proof.Machine
end

