-- ==== Sys2Proof/Certificates/Slice0/Obligations.lean ====
section
/-! DEFINITION. What is claimed of the model, rule by rule. Nothing is proved here. -/

open Sys2Proof Sys2Proof.Machine

/-! Command words (30_encoding.md). -/

/-- Words written out from R91 and R95: the three commands, by the decoder and by the table's bit numbering, and one word of each
shape of reserved word. -/
def Obligations.CommandWordsDecode : Prop :=
  decodeCmd 0x00000001#32 = .ok .extract ∧ decodeCmd 0x00000002#32 = .ok .encode ∧ decodeCmd 0x00000003#32 = .ok .decode ∧
  decodeTableWord 32 1 = some .extract ∧ decodeTableWord 32 2 = some .encode ∧ decodeTableWord 32 3 = some .decode ∧
  decodeCmd 0x00000000#32 = .error .opZero ∧ decodeCmd 0x00000004#32 = .error .opUnassigned ∧
  decodeCmd 0x000000FF#32 = .error .opUnassigned ∧ decodeCmd 0x00000101#32 = .error .rsvNotZero ∧
  decodeCmd 0x80000001#32 = .error .rsvNotZero ∧ decodeCmd 0xFFFFFFFF#32 = .error .rsvNotZero

/-- R93: the decoder matches all 32 bits, and every word has exactly one of the four outcomes. -/
def Obligations.DecoderMatchesTheWholeWord : Prop :=
  ∀ w : Word,
    (decodeCmd w = .ok .extract ↔ w.toNat = 1) ∧ (decodeCmd w = .ok .encode ↔ w.toNat = 2) ∧
    (decodeCmd w = .ok .decode ↔ w.toNat = 3) ∧
    ((∃ why, decodeCmd w = .error why) ↔ w.toNat = 0 ∨ 4 ≤ w.toNat)

/-- R95: the classes of reserved words, told apart by RSV (bits 31:8) and OP (bits 7:0), and all of them ending alike. -/
def Obligations.ReservedWordsByClass : Prop :=
  (∀ w : Word, w.toNat / 256 ≠ 0 → decodeCmd w = .error .rsvNotZero) ∧
  decodeCmd 0x00000000#32 = .error .opZero ∧
  (∀ w : Word, 4 ≤ w.toNat → w.toNat ≤ 255 → decodeCmd w = .error .opUnassigned) ∧
  (∀ (s : State) (why : ReservedWord), decodeCmd s.latch = .error why → engineStep s = .next s.completeReserved)

/-- R61, R90, R91, R94: the four bytes of a command decode to it and leave the bytes after them, and no other bytes do. -/
def Obligations.CommandBytesRoundTrip : Prop :=
  (∀ (i : Instr) (rest : List Byte), i.wf = true → decodeBytes (encodeBytes i ++ rest) = .ok (i, rest)) ∧
  (∀ (bytes rest : List Byte) (i : Instr), decodeBytes bytes = .ok (i, rest) → bytes = encodeBytes i ++ rest)

/-! Issue and completion (10_state.md). -/

/-- R34, R201: a 32-bit write of `w` to CMD. While BUSY = 1 the word is dropped and OVERRUN set, and nothing else changes; else `w`
is latched whatever it is, BUSY set and DONE, ERRCODE and HINIB cleared. No other state of the block changes; the model's own
fields are `AcceptedIssueStartsACleanWindow`'s, and what `bus_rdata` shows is `GrantedWriteAnswers`'s. -/
def Obligations.CmdWriteIssuesOrIsDropped : Prop :=
  ∀ (s : State) (w : Word), ∃ t : State, s.busAccess (writeReq .word 0x000 w) = t ∧
    t = if s.status.busy then
          { s with status := { s.status with overrun := true }, bus := { rdata := t.bus.rdata, err := false } }
        else
          { s with
            latch := w, status := { s.status with busy := true, done := false, errcode := 0, hinib := false },
            dirty := t.dirty, delay := t.delay, draws := t.draws, bus := { rdata := t.bus.rdata, err := false } }

/-- The model's bookkeeping of an accepted issue: the busy window that starts is one without a hazardous write (log entry 5, from
R203), and LATENCY is a free number of steps, its free-value index used up (log entry 2, from R198). -/
def Obligations.AcceptedIssueStartsACleanWindow : Prop :=
  ∀ (s : State) (w : Word), s.status.busy = false →
    (s.busAccess (writeReq .word 0x000 w)).dirty = false ∧
    (s.busAccess (writeReq .word 0x000 w)).delay = Config.latency s.draws ∧
    s.draws < (s.busAccess (writeReq .word 0x000 w)).draws

/-- R35: with a command in flight and its LATENCY passed, a step is `exec` of the command LATCH decodes to, with nothing around
it: BUSY and DONE are `exec`'s own. -/
def Obligations.StepRunsTheDecodedCommand : Prop :=
  ∀ (s : State) (i : Instr),
    s.status.busy = true → s.delay = 0 → decodeCmd s.latch = .ok i → i.wf = true → step s = exec i s

/-- R73, R198: when no completion is due, a step is the host's line, one step of LATENCY having passed while a command is in
flight. The count of LATENCY in steps is the model's (log entry 2). -/
def Obligations.HostLineRunsUntilCompletionIsDue : Prop :=
  ∀ (s : State) (line : HostLine),
    ¬ (s.status.busy = true ∧ s.delay = 0) → s.host.halted = none → s.host.prog[s.host.pos]? = some line →
      step s = .next ((if s.status.busy then { s with delay := s.delay - 1 } else s).runLine line)

/-- R182: with BUSY = 0 nothing but an accepted write to CMD sets BUSY. If the host has no line left, every register and byte
stays: that a host at its program's end makes no further access is the model's (log entry 9). -/
def Obligations.IdleBlockWakesOnlyByIssue : Prop :=
  ∀ s : State, s.status.busy = false →
    (s.host.halted = none → s.host.prog[s.host.pos]? = none → step s = .next s) ∧
    (∀ t : State, step s = .next t → t.status.busy = true →
      ∃ v : Word, t.latch = v ∧
        (s.host.prog[s.host.pos]? = some (.write .word 0x000 v) ∨
          s.host.prog[s.host.pos]? = some (.ports { we := true, size := 2, addr := 0x000, wdata := v })))

/-- R96: in a busy window without a hazardous write, a word in LATCH that is none of the three completes with ERRCODE 6, and nothing
but STATUS changes. -/
def Obligations.ReservedWordCompletesIllegal : Prop :=
  ∀ s : State, s.status.busy = true → s.delay = 0 → s.latch ≠ 1#32 → s.latch ≠ 2#32 → s.latch ≠ 3#32 → s.dirty = false →
    step s = .next { s with status := { s.status with busy := false, done := true, errcode := 6 } }

/-! EXTRACT (40_extract.md). -/

/-- R118, R116, R163: EXTRACT as a whole, in a busy window without a hazardous write. The three checks in their order, each
failing with STATUS alone changed; else column `c` of row `r` of glyph `i` at bit `3 - c` of GLY[5i + r], ink being a red byte
below 128, bits 7:4 zero, and nothing else changed. `pixByte k` is PIX[k], a free value where it is unwritten. -/
def Obligations.ExtractCommand : Prop :=
  decodeCmd 0x00000001#32 = .ok .extract ∧
  ∀ s : State, s.dirty = false →
    if s.srcFlags.getLsbD 0 = false then
      exec .extract s = .next { s with status := { s.status with busy := false, done := true, errcode := 1 } }
    else if s.imgW ≠ 16 ∨ s.imgH ≠ 20 then
      exec .extract s = .next { s with status := { s.status with busy := false, done := true, errcode := 2 } }
    else if s.srcFlags.getLsbD 1 = false then
      exec .extract s = .next { s with status := { s.status with busy := false, done := true, errcode := 3 } }
    else ∃ t, exec .extract s = .next t ∧
      t = { s with status := { s.status with busy := false, done := true, errcode := 0 },
                   mem := t.mem, draws := t.draws } ∧
      (∀ i < 16, ∀ r < 5, ∃ b : Byte, t.mem.read (0x100 + (5 * i + r)) = some b ∧
        (∀ c < 4, b.getLsbD (3 - c) =
          decide ((s.pixByte (((5 * (i / 4) + r) * 16 + (4 * (i % 4) + c)) * 4)).toNat < 128)) ∧
        ∀ j, 4 ≤ j → b.getLsbD j = false) ∧
      ∀ a, a < 0x100 ∨ 0x150 ≤ a → t.mem.read a = s.mem.read a

/-- R33, R122: the frame of EXTRACT, hazards included: STATUS, the 80 bytes of GLY and the free-value index, no more; of STATUS
the sticky bits stay, and HINIB too unless a hazardous write spoiled the command. -/
def Obligations.ExtractWritesOnlyGlyphsAndStatus : Prop :=
  ∀ s t : State, exec .extract s = .next t →
    t = { s with status := t.status, mem := t.mem, draws := t.draws } ∧
    t.status.overrun = s.status.overrun ∧ t.status.hazard = s.status.hazard ∧
    (s.dirty = false → t.status.hinib = s.status.hinib) ∧
    ∀ a, a < 0x100 ∨ 0x150 ≤ a → t.mem.read a = s.mem.read a

/-- R120: two states that agree on EXTRACT's operands and on the red bytes of PIX, whatever their green, blue and alpha bytes, get
the same GLY and the same outcome. -/
def Obligations.ExtractSeesOnlyRedBytes : Prop :=
  ∀ s u : State, s.dirty = false → u.dirty = false →
    s.srcFlags.getLsbD 0 = u.srcFlags.getLsbD 0 → s.srcFlags.getLsbD 1 = u.srcFlags.getLsbD 1 →
    s.imgW = u.imgW → s.imgH = u.imgH → s.draws = u.draws →
    (∀ p < 320, s.mem.read (0x800 + 4 * p) = u.mem.read (0x800 + 4 * p)) →
    (∀ k < 80, s.mem.read (0x100 + k) = u.mem.read (0x100 + k)) →
    ∃ t v, exec .extract s = .next t ∧ exec .extract u = .next v ∧ t.status.errcode = v.status.errcode ∧
      ∀ k < 80, t.mem.read (0x100 + k) = v.mem.read (0x100 + k)

/-- R121: after an EXTRACT with ERRCODE = 0 all 80 bytes of GLY have a value, every one at most 0x0F, and none is left from before:
the same state with any other GLY `m` gets the same 80 bytes. -/
def Obligations.ExtractedBytesAreNibbles : Prop :=
  ∀ s t : State, s.dirty = false → exec .extract s = .next t → t.status.errcode = 0 →
    (∀ k < 80, ∃ b : Byte, t.mem.read (0x100 + k) = some b ∧ b.toNat ≤ 0x0F) ∧
    ∀ m : Memory, (∀ a, a < 0x100 ∨ 0x150 ≤ a → m.read a = s.mem.read a) →
      ∃ u, exec .extract { s with mem := m } = .next u ∧ ∀ k < 80, u.mem.read (0x100 + k) = t.mem.read (0x100 + k)

/-- R110 to R114: every pixel is one (glyph, row, column), its red byte has the flat index the block reads, no two triples share a
pixel, and every index is a multiple of 4 inside PIX. -/
def Obligations.DemultiplexerIsABijection : Prop :=
  (∀ x < 16, ∀ y < 20, glyphOf x y < 16 ∧ rowOf y < 5 ∧ colOf x < 4 ∧ bitOf x = 3 - colOf x ∧
    pixIndex (glyphOf x y) (rowOf y) (colOf x) = (y * 16 + x) * 4) ∧
  (∀ i < 16, ∀ r < 5, ∀ c < 4, pixIndex i r c ≤ 1276 ∧ pixIndex i r c % 4 = 0 ∧
    ∀ i' < 16, ∀ r' < 5, ∀ c' < 4, pixIndex i r c = pixIndex i' r' c' → i = i' ∧ r = r' ∧ c = c')

/-- R115: ink is a red byte strictly below 128, which is the complement of its bit 7; 127 is ink and 128 is not. -/
def Obligations.InkIsBelow128 : Prop :=
  (∀ v : Byte, ink v = decide (v.toNat < 128) ∧ ink v = !v.getLsbD 7) ∧ ink 127#8 = true ∧ ink 128#8 = false

/-- R123: the red byte of pixel (x, y), whatever value it has or takes, decides bit `3 - (x mod 4)` of one byte of GLY and no
other bit. `v` ranges over every value an unwritten byte may show. -/
def Obligations.PixelDecidesOneGlyphBit : Prop :=
  ∀ (s : State) (v : Byte) (x y : Nat), x < 16 → y < 20 → s.dirty = false →
    s.srcFlags.getLsbD 0 = true → s.srcFlags.getLsbD 1 = true → s.imgW = 16 → s.imgH = 20 →
    ∃ t u, exec .extract s = .next t ∧
      exec .extract { s with mem := s.mem.write (0x800 + (y * 16 + x) * 4) v } = .next u ∧
      (∃ b : Byte, u.mem.read (0x100 + (5 * (y / 5 * 4 + x / 4) + y % 5)) = some b ∧
        b.getLsbD (3 - x % 4) = decide (v.toNat < 128)) ∧
      ∀ k < 80, ∀ j < 8, ¬ (k = 5 * (y / 5 * 4 + x / 4) + y % 5 ∧ j = 3 - x % 4) →
        ∃ b c : Byte, t.mem.read (0x100 + k) = some b ∧ u.mem.read (0x100 + k) = some c ∧ b.getLsbD j = c.getLsbD j

/-! ENCODE and DECODE (41_codec.md). -/

/-- R141: ENCODE as a whole, in a busy window without a hazardous write. `glyByte k` is GLY[k], a free value where it is
unwritten. -/
def Obligations.EncodeCommand : Prop :=
  decodeCmd 0x00000002#32 = .ok .encode ∧
  ∀ s : State, s.dirty = false →
    ∃ t, exec .encode s = .next t ∧
      t = { s with status := { s.status with busy := false, done := true, errcode := 0 },
                   mem := t.mem, frmLen := 80, draws := t.draws } ∧
      (∀ k < 80, t.mem.read (0x200 + k) = some (s.glyByte k)) ∧
      ∀ a, a < 0x200 ∨ 0x250 ≤ a → t.mem.read a = s.mem.read a

/-- R145: DECODE as a whole, in a busy window without a hazardous write. `frmByte k` is FRM[k], a free value where it is
unwritten. -/
def Obligations.DecodeCommand : Prop :=
  decodeCmd 0x00000003#32 = .ok .decode ∧
  ∀ s : State, s.dirty = false →
    if s.frmLen ≠ 80 then
      exec .decode s = .next { s with status := { s.status with busy := false, done := true, errcode := 4 } }
    else ∃ t, exec .decode s = .next t ∧
      t = { s with status := { s.status with busy := false, done := true, errcode := 0, hinib := t.status.hinib },
                   mem := t.mem, draws := t.draws } ∧
      (t.status.hinib = true ↔ ∃ k < 80, 0x0F < (s.frmByte k).toNat) ∧
      (∀ k < 80, t.mem.read (0x100 + k) = some (s.frmByte k)) ∧
      ∀ a, a < 0x100 ∨ 0x150 ≤ a → t.mem.read a = s.mem.read a

/-- R33, R154: the frames of ENCODE and DECODE, hazards included. ENCODE writes FRM, FRM_LEN and STATUS, DECODE GLY and STATUS;
the sticky bits stay; a DECODE that fails writes no byte. -/
def Obligations.CodecWritesOnlyItsResults : Prop :=
  (∀ s t : State, exec .encode s = .next t →
    t = { s with status := t.status, mem := t.mem, frmLen := t.frmLen, draws := t.draws } ∧
    t.status.overrun = s.status.overrun ∧ t.status.hazard = s.status.hazard ∧
    (s.dirty = false → t.status.hinib = s.status.hinib) ∧
    ∀ a, a < 0x200 ∨ 0x250 ≤ a → t.mem.read a = s.mem.read a) ∧
  (∀ s t : State, exec .decode s = .next t →
    t = { s with status := t.status, mem := t.mem, draws := t.draws } ∧
    t.status.overrun = s.status.overrun ∧ t.status.hazard = s.status.hazard ∧
    (s.dirty = false → t.status.errcode ≠ 0 → t.mem = s.mem ∧ t.status.hinib = s.status.hinib) ∧
    ∀ a, a < 0x100 ∨ 0x150 ≤ a → t.mem.read a = s.mem.read a)

/-- R148: for every content `x` of GLY, high bits included, ENCODE and then a DECODE, with no host write between them but the one
that issues it, leave GLY = `x` and ERRCODE = 0. `rs` and `qs` are any host reads before and after that issue. -/
def Obligations.EncodeThenDecodeIsIdentity : Prop :=
  ∀ (s : State) (x : Nat → Byte), s.dirty = false → (∀ k < 80, s.mem.read (0x100 + k) = some (x k)) →
    ∃ t, exec .encode s = .next t ∧
      ∀ rs qs : List BusReq, (∀ r ∈ rs, r.we = false) → (∀ r ∈ qs, r.we = false) →
        ∃ u, engineStep (((t.busAccesses rs).busAccess (writeReq .word 0x000 0x00000003)).busAccesses qs) = .next u ∧
          u.status.errcode = 0 ∧ ∀ k < 80, u.mem.read (0x100 + k) = some (x k)

/-- R149: for every content `f` of FRM with FRM_LEN = 80, DECODE and then an ENCODE, with no host write between them but the one
that issues it, leave FRM = `f` and FRM_LEN = 80, whatever the host reads; and on 80 bytes the two pure functions undo each
other. -/
def Obligations.DecodeThenEncodeIsIdentity : Prop :=
  (∀ (s : State) (f : Nat → Byte), s.dirty = false → s.frmLen = 80 → (∀ k < 80, s.mem.read (0x200 + k) = some (f k)) →
    ∃ t, exec .decode s = .next t ∧
      ∀ rs qs : List BusReq, (∀ r ∈ rs, r.we = false) → (∀ r ∈ qs, r.we = false) →
        ∃ u, engineStep (((t.busAccesses rs).busAccess (writeReq .word 0x000 0x00000002)).busAccesses qs) = .next u ∧
          u.frmLen = 80 ∧ ∀ k < 80, u.mem.read (0x200 + k) = some (f k)) ∧
  (∀ f : Nat → Byte, ∃ g, decodeFn f 80 = .ok g ∧ ∀ k < 80, encodeFn g k = f k) ∧
  (∀ g : Nat → Nat → Byte, ∃ h, decodeFn (encodeFn g) 80 = .ok h ∧ ∀ i < 16, ∀ r < 5, h i r = g i r)

/-- R150: after a successful EXTRACT and an ENCODE, with no host write between them but the one that issues it, pixel (x, y) is bit
`3 - (x mod 4)` of frame byte `5 * ((y div 5) * 4 + (x div 4)) + (y mod 5)`, and bits 7:4 of every frame byte are 0, whatever
the host reads. -/
def Obligations.FrameBitMap : Prop :=
  ∀ s t : State, s.dirty = false → exec .extract s = .next t → t.status.errcode = 0 →
    ∀ rs qs : List BusReq, (∀ r ∈ rs, r.we = false) → (∀ r ∈ qs, r.we = false) →
      ∃ u, engineStep (((t.busAccesses rs).busAccess (writeReq .word 0x000 0x00000002)).busAccesses qs) = .next u ∧
        (∀ x < 16, ∀ y < 20, ∃ b : Byte, u.mem.read (0x200 + (5 * (y / 5 * 4 + x / 4) + y % 5)) = some b ∧
          b.getLsbD (3 - x % 4) = decide ((s.pixByte ((y * 16 + x) * 4)).toNat < 128)) ∧
        ∀ k < 80, ∃ b : Byte, u.mem.read (0x200 + k) = some b ∧ ∀ j, 4 ≤ j → b.getLsbD j = false

/-! Outcomes and errors (60_exceptions.md). -/

/-- R35, R142, R160, R161, R164: every command completes from every state, hazards included, with BUSY = 0, DONE = 1 and one of
the codes that are its own; the sticky bits stay. -/
def Obligations.EveryCommandCompletesWithItsOwnCodes : Prop :=
  ∀ (i : Instr) (s : State), ∃ t, exec i s = .next t ∧ t.status.busy = false ∧ t.status.done = true ∧
    t.status.overrun = s.status.overrun ∧ t.status.hazard = s.status.hazard ∧
    (i = .extract → t.status.errcode.toNat ≤ 3) ∧ (i = .encode → t.status.errcode = 0) ∧
    (i = .decode → t.status.errcode = 0 ∨ t.status.errcode = 4)

/-- R166, R167: a command that completes with ERRCODE != 0 leaves every register and byte but STATUS, and of STATUS it writes
BUSY, DONE and ERRCODE; in a busy window without a hazardous write. -/
def Obligations.ErrorsArePrecise : Prop :=
  ∀ (i : Instr) (s t : State), s.dirty = false → exec i s = .next t → t.status.errcode ≠ 0 →
    t = { s with status := { s.status with busy := false, done := true, errcode := t.status.errcode } }

/-- R165: the outcome is a function of the operands alone: EXTRACT's of the two verdict bits and the size, DECODE's of FRM_LEN. -/
def Obligations.OutcomeIsAFunctionOfTheOperands : Prop :=
  (∀ s u t v : State, s.dirty = false → u.dirty = false →
    s.srcFlags.getLsbD 0 = u.srcFlags.getLsbD 0 → s.srcFlags.getLsbD 1 = u.srcFlags.getLsbD 1 →
    s.imgW = u.imgW → s.imgH = u.imgH → exec .extract s = .next t → exec .extract u = .next v →
    t.status.errcode = v.status.errcode) ∧
  (∀ s u t v : State, s.dirty = false → u.dirty = false → s.frmLen = u.frmLen →
    exec .decode s = .next t → exec .decode u = .next v → t.status.errcode = v.status.errcode)

/-- R33: no completion, of a command or of a reserved word, writes PIX, IMG_W, IMG_H, SRC_FLAGS or LATCH, or touches the host. -/
def Obligations.CompletionNeverWritesTheImage : Prop :=
  ∀ s t : State, engineStep s = .next t →
    t = { s with status := t.status, mem := t.mem, frmLen := t.frmLen, draws := t.draws } ∧
    ∀ a, 0x800 ≤ a → a ≤ 0xCFF → t.mem.read a = s.mem.read a

/-! The busy window (70_reset_and_hazards.md). -/

/-- R69, R203: a granted write while BUSY = 1 to an offset other than CMD and STATUS is performed as it would be while idle, sets
HAZARD, spoils the running command, and is recorded as a fault of the run; the command goes on. -/
def Obligations.WriteWhileBusyIsAHazard : Prop :=
  ∀ (s : State) (r : BusReq) (t : Target),
    s.status.busy = true → r.we = true → checkAccess r.addr r.size = .ok t → r.addr ≠ 0x000 → r.addr ≠ 0x004 →
    s.busAccess r =
      { ({ s with status := { s.status with busy := false } } : State).busAccess r with
        status := { s.status with hazard := true }, dirty := true, faults := (s.busAccess r).faults } ∧
    ∀ f, f ∈ (s.busAccess r).faults ↔ f = .hostHazard r.addr ∨ f ∈ s.faults

/-- R203: what a hazardous write leaves of the running command. Each byte it may write takes a free value, ERRCODE is any code it can
produce, HINIB any bit (for every command: log entry 6), and nothing else changes; a reserved word still has code 6. The free-value index moves past
every index used (log entry 3). -/
def Obligations.HazardLeavesResultsUnderNoLaw : Prop :=
  ∀ s : State, s.dirty = true →
    (∃ t, exec .extract s = .next t ∧
      t = { s with status := { s.status with busy := false, done := true, errcode := t.status.errcode,
                                             hinib := Config.freeBit s.draws },
                   mem := t.mem, draws := t.draws } ∧
      s.draws + 80 ≤ t.draws ∧ t.status.errcode.toNat = (Config.freeWord s.draws).toNat % 4 ∧
      (∀ k < 80, t.mem.read (0x100 + k) = some (Config.freeByte (s.draws + k))) ∧
      ∀ a, a < 0x100 ∨ 0x150 ≤ a → t.mem.read a = s.mem.read a) ∧
    (∃ t, exec .encode s = .next t ∧
      t = { s with status := { s.status with busy := false, done := true, errcode := 0, hinib := Config.freeBit s.draws },
                   mem := t.mem, frmLen := Config.freeWord s.draws, draws := t.draws } ∧
      s.draws + 80 ≤ t.draws ∧
      (∀ k < 80, t.mem.read (0x200 + k) = some (Config.freeByte (s.draws + k))) ∧
      ∀ a, a < 0x200 ∨ 0x250 ≤ a → t.mem.read a = s.mem.read a) ∧
    (∃ t, exec .decode s = .next t ∧
      t = { s with status := { s.status with busy := false, done := true, errcode := t.status.errcode,
                                             hinib := Config.freeBit s.draws },
                   mem := t.mem, draws := t.draws } ∧
      s.draws + 80 ≤ t.draws ∧ (t.status.errcode = if Config.freeBit (s.draws + 1) then 4 else 0) ∧
      (∀ k < 80, t.mem.read (0x100 + k) = some (Config.freeByte (s.draws + k))) ∧
      ∀ a, a < 0x100 ∨ 0x150 ≤ a → t.mem.read a = s.mem.read a) ∧
    (s.completeReserved =
      { s with status := { s.status with busy := false, done := true, errcode := 6, hinib := Config.freeBit s.draws },
               draws := s.completeReserved.draws } ∧
      s.draws < s.completeReserved.draws)

/-- R171, R24: OVERRUN and HAZARD, once 1, stay 1 over every step but the platform's reset; and no access made while a command
is in flight changes BUSY, DONE, ERRCODE, HINIB or LATCH, or the steps left before it completes, which are the model's count of
LATENCY (log entry 2). -/
def Obligations.StickyBitsClearOnlyAtReset : Prop :=
  (∀ s t : State, step s = .next t → s.host.prog[s.host.pos]? ≠ some .platformReset →
    (s.status.overrun = true → t.status.overrun = true) ∧ (s.status.hazard = true → t.status.hazard = true)) ∧
  (∀ (s : State) (r : BusReq), s.status.busy = true →
    (s.busAccess r).status.busy = true ∧ (s.busAccess r).status.done = s.status.done ∧
    (s.busAccess r).status.errcode = s.status.errcode ∧ (s.busAccess r).status.hinib = s.status.hinib ∧
    (s.busAccess r).latch = s.latch ∧ (s.busAccess r).delay = s.delay)

/-- R198, R199: a command in flight, whatever the host does meanwhile short of a reset, has its completion step after the finite
LATENCY left, with LATCH what it was, and then BUSY = 0 and DONE = 1. -/
def Obligations.EveryAcceptedCommandCompletes : Prop :=
  ∀ s : State, s.status.busy = true → (∀ line ∈ s.host.prog, line ≠ .platformReset) →
    ∃ u t : State, Host.Core.run Sys2Proof.core s.delay s = .next u ∧ u.latch = s.latch ∧ u.status.busy = true ∧
      u.delay = 0 ∧ Host.Core.run Sys2Proof.core (s.delay + 1) s = .next t ∧ engineStep u = .next t ∧
      t.status.busy = false ∧ t.status.done = true

/-! The bus (20_memory.md). -/

/-- R65: the check of every access, its order and what passes. -/
def Obligations.AccessCheck : Prop :=
  ∀ (ofs : BitVec 12) (size : BitVec 2),
    checkAccess ofs size =
      if size.toNat = 3 then .error .badSize
      else if ofs.toNat % 2 ^ size.toNat ≠ 0 then .error .misaligned
      else if ofs.toNat ≤ 0x017 then
        (if size.toNat ≠ 2 then .error .registerWidth else .ok (.reg (regAt ofs.toNat)))
      else if 0x100 ≤ ofs.toNat ∧ ofs.toNat ≤ 0x14F then .ok (.mem .gly (2 ^ size.toNat))
      else if 0x200 ≤ ofs.toNat ∧ ofs.toNat ≤ 0x24F then .ok (.mem .frm (2 ^ size.toNat))
      else if 0x800 ≤ ofs.toNat ∧ ofs.toNat ≤ 0xCFF then .ok (.mem .pix (2 ^ size.toNat))
      else .error .reservedOffset

/-- R64: a granted access to a memory is aligned and never straddles the memory's end. -/
def Obligations.GrantedAccessStaysInItsMemory : Prop :=
  ∀ (ofs : BitVec 12) (size : BitVec 2) (m : Storage) (n : Nat), checkAccess ofs size = .ok (.mem m n) →
    ofs.toNat % n = 0 ∧ ∀ j < n, region (ofs.toNat + j) = .storage m

/-- R66, R169: a refused access changes no state of the block, raises bus_err, and is recorded with its offset and width; a
refused read returns no data. That `bus_rdata` shows no data after a refused write either, and that the free-value index stays,
is the model's reading (log entry 19). -/
def Obligations.RefusedAccessChangesNothing : Prop :=
  ∀ (s : State) (r : BusReq) (e : BusRefusal), checkAccess r.addr r.size = .error e →
    s.busAccess r = { s with bus := { rdata := none, err := true }, faults := (s.busAccess r).faults } ∧
    ∀ f, f ∈ (s.busAccess r).faults ↔ f = .busError r.addr r.size ∨ f ∈ s.faults

/-- R68: a granted read changes no state of the block and returns, by offset: 0 for CMD, STATUS, IMG_W, IMG_H, bits 1:0 of SRC_FLAGS,
FRM_LEN (a free value while BUSY = 1); of GLY and FRM while BUSY = 1 a free value of the width; else the bytes in
little-endian order, each a free value where it is unwritten, with zeros above the width. That narrow data stands right-aligned
on `bus_rdata` is the model's reading (log entry 8), and so is the free-value index, which moves past every index the read can
use (log entry 3). -/
def Obligations.HostReadReturns : Prop :=
  ∀ (s : State) (r : BusReq) (t : Target), r.we = false → checkAccess r.addr r.size = .ok t →
    ∃ v : Word,
      s.busAccess r = { s with bus := { rdata := some v, err := false }, draws := (s.busAccess r).draws } ∧
      s.draws + 4 ≤ (s.busAccess r).draws ∧
      (r.addr = 0x000 → v = 0) ∧
      (r.addr = 0x004 → v = s.status.word) ∧
      (r.addr = 0x008 → v = s.imgW) ∧
      (r.addr = 0x00C → v = s.imgH) ∧
      (r.addr = 0x010 → v = s.srcFlags &&& 3) ∧
      (r.addr = 0x014 → v = if s.status.busy then Config.freeWord s.draws else s.frmLen) ∧
      ∀ m n, t = .mem m n →
        if s.status.busy = true ∧ m ≠ .pix then v.toNat = (Config.freeWord s.draws).toNat % 256 ^ n
        else ∀ j < 4, v.extractLsb' (8 * j) 8 =
          if j < n then (s.mem.read (r.addr.toNat + j)).getD (Config.freeByte (s.draws + j)) else 0

/-- A granted write raises no bus_err (R66). That it shows no data on `bus_rdata` is the model's reading (log entry 19). -/
def Obligations.GrantedWriteAnswers : Prop :=
  ∀ (s : State) (r : BusReq) (t : Target), r.we = true → checkAccess r.addr r.size = .ok t →
    (s.busAccess r).bus = { rdata := none, err := false }

/-- R14, R38: a free value is new at each use, the model's index `draws` (log entry 3) being used up. No step moves it back; a
granted read, and each completion that draws, moves it past every index used; an engine read of an unwritten byte uses an index
below that; and two host reads of unwritten bytes, any number of steps apart, use two indices. -/
def Obligations.FreeValuesAreNewAtEachUse : Prop :=
  (∀ s t : State, step s = .next t → s.draws ≤ t.draws) ∧
  (∀ (s : State) (k : Nat), k < 1280 →
    s.pixByte k = (s.mem.read (0x800 + k)).getD (Config.freeByte (s.draws + k / 4)) ∧ k / 4 < 320) ∧
  (∀ (s : State) (k : Nat),
    s.glyByte k = (s.mem.read (0x100 + k)).getD (Config.freeByte (s.draws + k)) ∧
    s.frmByte k = (s.mem.read (0x200 + k)).getD (Config.freeByte (s.draws + k))) ∧
  (∀ s t : State, exec .extract s = .next t → s.dirty = false → t.status.errcode = 0 → s.draws + 320 ≤ t.draws) ∧
  (∀ s t : State, exec .encode s = .next t → s.draws + 80 ≤ t.draws) ∧
  (∀ s t : State, exec .decode s = .next t → t.status.errcode = 0 → s.draws + 80 ≤ t.draws) ∧
  ∀ (s u : State) (r q : BusReq) (m m' : Storage) (n n' j j' k : Nat),
    r.we = false → checkAccess r.addr r.size = .ok (.mem m n) → (s.status.busy = false ∨ m = .pix) → j < n →
    s.mem.read (r.addr.toNat + j) = none →
    Host.Core.run Sys2Proof.core k (s.busAccess r) = .next u →
    q.we = false → checkAccess q.addr q.size = .ok (.mem m' n') → (u.status.busy = false ∨ m' = .pix) → j' < n' →
    u.mem.read (q.addr.toNat + j') = none →
    ∃ (v w : Word) (i i' : Nat), i < i' ∧ (s.busAccess r).bus.rdata = some v ∧ (u.busAccess q).bus.rdata = some w ∧
      v.extractLsb' (8 * j) 8 = Config.freeByte i ∧ w.extractLsb' (8 * j') 8 = Config.freeByte i'

/-- R24, R39: the value of STATUS: each field in its place, every reserved bit 0. -/
def Obligations.StatusWordLayout : Prop :=
  ∀ st : Status,
    st.word.toNat = st.busy.toNat + 2 * st.done.toNat + 16 * st.errcode.toNat + 256 * st.hinib.toNat +
      65536 * st.overrun.toNat + 131072 * st.hazard.toNat

/-- R69, R24, R26 to R29: 32-bit writes of the registers while BUSY = 0: STATUS ignores the write (at any time), IMG_W, IMG_H
and FRM_LEN keep all 32 bits, SRC_FLAGS bits 1:0; nothing else changes but the answer on the output ports. -/
def Obligations.RegisterWritesStore : Prop :=
  (∀ (s : State) (v : Word), s.busAccess (writeReq .word 0x004 v) = { s with bus := { rdata := none, err := false } }) ∧
  (∀ (s : State) (v : Word), s.status.busy = false →
    s.busAccess (writeReq .word 0x008 v) = { s with imgW := v, bus := { rdata := none, err := false } } ∧
    s.busAccess (writeReq .word 0x00C v) = { s with imgH := v, bus := { rdata := none, err := false } } ∧
    s.busAccess (writeReq .word 0x010 v) = { s with srcFlags := v &&& 3, bus := { rdata := none, err := false } } ∧
    s.busAccess (writeReq .word 0x014 v) = { s with frmLen := v, bus := { rdata := none, err := false } })

/-- R61, R62, R69: a granted write of `n` bytes to a memory while BUSY = 0 leaves byte `ofs + j` the bits 8j+7 : 8j of the value,
every other byte and all else as before; a read of the same width then returns the value's low `n` bytes. -/
def Obligations.MemoryWriteThenRead : Prop :=
  ∀ (s : State) (n : Width) (ofs : BitVec 12) (v : Word) (m : Storage),
    s.status.busy = false → checkAccess ofs n.sizeCode = .ok (.mem m n.bytes) →
    ∃ t : State, s.busAccess (writeReq n ofs v) = t ∧
      t = { s with mem := t.mem, bus := { rdata := none, err := false } } ∧
      (∀ j < n.bytes, t.mem.read (ofs.toNat + j) = some (v.extractLsb' (8 * j) 8)) ∧
      (∀ a, a < ofs.toNat ∨ ofs.toNat + n.bytes ≤ a → t.mem.read a = s.mem.read a) ∧
      ∃ w : Word, (t.busAccess (readReq n ofs)).bus = { rdata := some w, err := false } ∧
        w.toNat = v.toNat % 256 ^ n.bytes

/-- R70: no read has a side effect; every granted write other than to CMD is idempotent, HAZARD included; of two command words
written to CMD the first issues and the second only sets OVERRUN. -/
def Obligations.OnlyCmdWritesHaveSideEffects : Prop :=
  (∀ (s : State) (r : BusReq) (t : Target), r.we = false → checkAccess r.addr r.size = .ok t →
    s.busAccess r = { s with bus := (s.busAccess r).bus, draws := (s.busAccess r).draws }) ∧
  (∀ (s : State) (r : BusReq) (t : Target), r.we = true → checkAccess r.addr r.size = .ok t → r.addr ≠ 0x000 →
    (s.busAccess r).busAccess r = s.busAccess r) ∧
  (∀ (s : State) (w : Word), s.status.busy = false → ∃ t : State,
    s.busAccess (writeReq .word 0x000 w) = t ∧ t.status.busy = true ∧ t.latch = w ∧
    t.busAccess (writeReq .word 0x000 w) = { t with status := { t.status with overrun := true } })

/-- R67: FONDANT_BASE is a multiple of 4096, and bus addresses in the window and window offsets are one to one. -/
def Obligations.WindowAddressesRoundTrip : Prop :=
  Config.fondantBase % 4096 = 0 ∧
  (∀ ofs : BitVec 12, Config.windowOffset (Config.busAddress ofs) = some ofs) ∧
  (∀ (addr : Nat) (ofs : BitVec 12), Config.windowOffset addr = some ofs → addr = Config.busAddress ofs)

/-! The host (30_encoding.md R98, 20_memory.md R66). -/

/-- R98: the port values of W8, W16 and W32 lines, misaligned ones included, and of R8, R16 and R32 lines; and the block takes
from the lanes of an aligned line the value written. R98 gives the lanes of the access alone: that every other lane of a W8 or
W16 is 0, and that there is no lane 4 for the second byte of a W16 at `ofs mod 4 = 3`, is the model's choice (log entry 21). -/
def Obligations.HostLinePorts : Prop :=
  ∀ (ofs : BitVec 12) (v : Word),
    (∀ n : Width, (writeReq n ofs v).we = true ∧ (writeReq n ofs v).addr = ofs ∧
      2 ^ (writeReq n ofs v).size.toNat = n.bytes ∧ (readReq n ofs).we = false ∧ (readReq n ofs).addr = ofs ∧
      2 ^ (readReq n ofs).size.toNat = n.bytes) ∧
    (writeReq .byte ofs v).wdata.toNat = v.toNat % 256 * 256 ^ (ofs.toNat % 4) ∧
    (ofs.toNat % 4 ≠ 3 → (writeReq .half ofs v).wdata.toNat = v.toNat % 65536 * 256 ^ (ofs.toNat % 4)) ∧
    (writeReq .word ofs v).wdata = v ∧
    ∀ n : Width, ofs.toNat % n.bytes = 0 → (busValue (writeReq n ofs v)).toNat = v.toNat % 256 ^ n.bytes

/-- R98: BNE goes to its label exactly if `(t & mask) != v`, and makes no bus access: the host alone moves on, its program and
temporaries unchanged. `temp` is the temporary's value, a free value where nothing has been read into it (log entry 11). -/
def Obligations.HostBranches : Prop :=
  ∀ (s : State) (t : Nat) (mask v : Word) (l p : Nat),
    s.host.prog[p]? = some (.label l) → (∀ q < p, s.host.prog[q]? ≠ some (.label l)) →
    s.runLine (.bne t mask v l) =
      { s with host := { s.host with pos := if s.temp t &&& mask ≠ v then p else s.host.pos + 1 }, draws := s.draws + 1 }

/-- R98: R8, R16 and R32 put the value read, the bytes above the width 0, into the line's temporary, leave every other temporary
and the program, and go on to the next line; the block does what the access does to it and no more. -/
def Obligations.HostReadsIntoItsTemporary : Prop :=
  ∀ (s : State) (n : Width) (ofs : BitVec 12) (t : Nat) (q : Target), checkAccess ofs n.sizeCode = .ok q →
    ∃ v : Word, (s.busAccess (readReq n ofs)).bus.rdata = some v ∧
      s.runLine (.read n ofs t) =
        { s.busAccess (readReq n ofs) with
          host := { s.host with pos := s.host.pos + 1, temps := (s.runLine (.read n ofs t)).host.temps } } ∧
      (s.runLine (.read n ofs t)).temp t = v ∧
      (∀ k, k ≠ t → cellsRead (s.runLine (.read n ofs t)).host.temps k = cellsRead s.host.temps k) ∧
      v.toNat < 256 ^ n.bytes ∧ s.draws + 4 ≤ (s.runLine (.read n ofs t)).draws

/-- R98, R99: the other lines that go on. A granted W8, W16 or W32 line, and a granted access given by its port values, does to the
block what the access does, moves the host to its next line and leaves its temporaries; a label only moves the host on; a
CHECK moves it on and is no bus access. That a failed CHECK is kept in the host, and that a temporary nothing has read into has
a free value there, is the model's (log entry 11). -/
def Obligations.HostLinesGoOn : Prop :=
  (∀ (s : State) (n : Width) (ofs : BitVec 12) (v : Word) (q : Target), checkAccess ofs n.sizeCode = .ok q →
    s.runLine (.write n ofs v) =
      { s.busAccess (writeReq n ofs v) with host := { s.host with pos := s.host.pos + 1 } }) ∧
  (∀ (s : State) (r : BusReq) (q : Target), checkAccess r.addr r.size = .ok q →
    s.runLine (.ports r) = { s.busAccess r with host := { s.host with pos := s.host.pos + 1 } }) ∧
  (∀ (s : State) (l : Nat), s.runLine (.label l) = { s with host := { s.host with pos := s.host.pos + 1 } }) ∧
  (∀ (s : State) (t : Nat) (v : Word), ∃ u : State, s.runLine (.check t v) = u ∧ s.draws < u.draws ∧
    u = { s with draws := u.draws,
                 host := { s.host with pos := s.host.pos + 1,
                                       checkFailed := s.host.checkFailed || decide (s.temp t ≠ v) } })

/-- R66: the host stops at a refused access, a command in flight still completes, and then, with the block idle, step answers
the fault; step stops in no other state and never refuses. Nothing but a refused access of the host's line stops the host, and
the fault answered is that access's, on record. That the host stops there is the model's (log entry 7). -/
def Obligations.StepStopsOnlyAtARefusedAccess : Prop :=
  (∀ (s : State) (f : Fault), step s = .fault f ↔ s.host.halted = some f ∧ s.status.busy = false) ∧
  (∀ (s : State) (r : Refusal), step s ≠ .refused r) ∧
  (∀ (s : State) (r : BusReq) (t : Option Nat) (e : BusRefusal), checkAccess r.addr r.size = .error e →
    (s.hostAccess r t).host = { s.host with halted := some (.busError r.addr r.size) }) ∧
  (∀ s t : State, step s = .next t → t.host.halted ≠ s.host.halted →
    ∃ line r e, s.host.prog[s.host.pos]? = some line ∧ line.request = some r ∧ checkAccess r.addr r.size = .error e ∧
      t.host.halted = some (.busError r.addr r.size)) ∧
  (∀ (s : State) (f : Fault), s.Inv → step s = .fault f → f ∈ s.faults ∧ ∃ ofs size, f = .busError ofs size)

/-- R66, R203: a recorded fault is never cleared, by no step, a reset included. -/
def Obligations.RecordedFaultsAreNeverCleared : Prop :=
  ∀ (s t : State) (f : Fault), step s = .next t → f ∈ s.faults → f ∈ t.faults

/-- R205, R182: a finished run (the last access made, BUSY = 0, no fault recorded) stays as it is, whatever the steps. That
the last access counts as made only past the program's last line, and that the host makes no further access there, is the
model's choice (log entries 22 and 9). -/
def Obligations.FinishedRunStays : Prop :=
  ∀ (s : State) (k : Nat), s.Inv → s.finished → Host.Core.run Sys2Proof.core k s = .next s

/-! Reset and the invariant. -/

/-- R40: every register and STATUS field 0, CMD reading 0, every byte of the window unwritten, no completion due, so LATCH
is not read. The 0 that LATCH itself has is the model's (log entry 4) and is not claimed. -/
def Obligations.ResetValues : Prop :=
  State.reset.status.word = 0 ∧ State.reset.imgW = 0 ∧ State.reset.imgH = 0 ∧ State.reset.srcFlags = 0 ∧
  State.reset.frmLen = 0 ∧ State.reset.readReg .cmd = 0 ∧ State.reset.engineReady = false ∧
  ∀ a, State.reset.mem.read a = none

/-- R190, R191: the reset event gives every register and STATUS field its reset value, makes every byte unwritten and abandons a
command in flight; LATCH is any value. It is the platform's line, when no completion is due before it. -/
def Obligations.ResetEvent : Prop :=
  ∀ s : State, ¬ (s.status.busy = true ∧ s.delay = 0) → s.host.halted = none →
    s.host.prog[s.host.pos]? = some .platformReset →
    ∃ t, step s = .next t ∧ t.status = State.reset.status ∧ t.imgW = 0 ∧ t.imgH = 0 ∧ t.srcFlags = 0 ∧ t.frmLen = 0 ∧
      (∀ a, t.mem.read a = none) ∧ t.latch = Config.freeWord s.draws ∧ t.engineReady = false

/-- The invariant of the machine (`State.Inv`) holds right after reset. -/
def Obligations.InvariantHoldsAtReset : Prop := State.reset.Inv

/-- R25, R28, R39, R67, R203: every step, of the engine or of the host, from any state that meets the invariant, gives a state
that meets it: memory canonical and within the three memories, STATUS legal, the reserved bits of SRC_FLAGS 0, a spoiled window
shown by HAZARD, HAZARD by a recorded fault and a stopped host by a recorded refused access. -/
def Obligations.EveryStepKeepsTheInvariant : Prop :=
  ∀ s t : State, s.Inv → step s = .next t → t.Inv
end

