-- ==== Sys2Proof/Laws/Encoding.lean ====
section
/-! SUPPORT. The laws of the command words, of the byte lanes and of the port values of a host line
(spec 20_memory.md R61, 30_encoding.md R90-R98). -/

namespace Sys2Proof

/-- The bits of a word made of four bytes. -/
theorem wordOfBytes_getLsbD (b0 b1 b2 b3 : Byte) (i : Nat) : (wordOfBytes b0 b1 b2 b3).getLsbD i =
    if i < 8 then b0.getLsbD i else if i < 16 then b1.getLsbD (i - 8) else if i < 24 then b2.getLsbD (i - 16)
      else b3.getLsbD (i - 24) := by
  have h1 : (wordOfBytes b0 b1 b2 b3).getLsbD i = if i < 8 then b0.getLsbD i else (b3 ++ b2 ++ b1).getLsbD (i - 8) :=
    BitVec.getLsbD_append ..
  have h2 : (b3 ++ b2 ++ b1).getLsbD (i - 8) =
      if i - 8 < 8 then b1.getLsbD (i - 8) else (b3 ++ b2).getLsbD (i - 8 - 8) := BitVec.getLsbD_append ..
  have h3 : (b3 ++ b2).getLsbD (i - 8 - 8) =
      if i - 8 - 8 < 8 then b2.getLsbD (i - 8 - 8) else b3.getLsbD (i - 8 - 8 - 8) := BitVec.getLsbD_append ..
  rw [h1, h2, h3]
  have e1 : i - 8 - 8 = i - 16 := by omega
  have e2 : i - 16 - 8 = i - 24 := by omega
  rw [e1, e2]
  split_ifs <;> first | rfl | omega

/-- A word is made of its own bytes (R61). -/
theorem wordOfBytes_wordBytes (w : Word) :
    wordOfBytes (w.extractLsb' 0 8) (w.extractLsb' 8 8) (w.extractLsb' 16 8) (w.extractLsb' 24 8) = w := by
  apply BitVec.eq_of_getLsbD_eq
  intro i hi
  rw [wordOfBytes_getLsbD]
  simp only [BitVec.getLsbD_extractLsb']
  split_ifs with h1 h2 h3
  · simp [h1]
  · have : 8 + (i - 8) = i := by omega
    simp [this, show i - 8 < 8 by omega]
  · have : 16 + (i - 16) = i := by omega
    simp [this, show i - 16 < 8 by omega]
  · have : 24 + (i - 24) = i := by omega
    simp [this, show i - 24 < 8 by omega]

/-- The bytes of a word made of four bytes are those bytes (R61). -/
theorem wordBytes_wordOfBytes (b0 b1 b2 b3 : Byte) : wordBytes (wordOfBytes b0 b1 b2 b3) = [b0, b1, b2, b3] := by
  have byteEq : ∀ (k : Nat) (b : Byte), (∀ i < 8, (wordOfBytes b0 b1 b2 b3).getLsbD (k + i) = b.getLsbD i) →
      (wordOfBytes b0 b1 b2 b3).extractLsb' k 8 = b := by
    intro k b h
    apply BitVec.eq_of_getLsbD_eq
    intro i hi
    simp only [BitVec.getLsbD_extractLsb', hi, decide_true, Bool.true_and]
    exact h i hi
  simp only [wordBytes, List.cons.injEq, and_true]
  refine ⟨byteEq 0 b0 ?_, byteEq 8 b1 ?_, byteEq 16 b2 ?_, byteEq 24 b3 ?_⟩ <;>
    · intro i hi
      rw [wordOfBytes_getLsbD]
      split_ifs <;> first | omega | (congr 1; omega)

/-- `decode_cmd` by cases (R93). -/
theorem decodeCmd_ok_iff (w : Word) (i : Instr) : decodeCmd w = .ok i ↔ w = encode i := by
  unfold decodeCmd
  split_ifs with h1 h2 h3
  · subst h1; cases i <;> simp [encode]
  · subst h2; cases i <;> simp [encode]
  · subst h3; cases i <;> simp [encode]
  · cases i <;> simp [encode, h1, h2, h3]

/-- Decoding gives back the command encoded (R91, R93). -/
theorem decodeCmd_encode (i : Instr) : decodeCmd (encode i) = .ok i := (decodeCmd_ok_iff _ i).mpr rfl

/-- Four bytes decode as the word they make. -/
theorem decodeBytes_cons (b0 b1 b2 b3 : Byte) (rest : List Byte) :
    decodeBytes (b0 :: b1 :: b2 :: b3 :: rest) =
      match decodeCmd (wordOfBytes b0 b1 b2 b3) with
      | .ok i => .ok (i, rest)
      | .error why => .error (.reserved why) := rfl

/-- The low `n` bytes of a word, bit by bit. -/
theorem lowBytes_getLsbD (n : Nat) (v : Word) {i : Nat} (hi : i < 32) :
    (lowBytes n v).getLsbD i = (decide (i < 8 * n) && v.getLsbD i) := by
  simp [lowBytes, hi]

/-- The low bytes as a number. -/
theorem lowBytes_toNat {n : Nat} (hn : n = 1 ∨ n = 2 ∨ n = 4) (v : Word) : (lowBytes n v).toNat = v.toNat % 256 ^ n := by
  have := v.isLt
  rcases hn with rfl | rfl | rfl <;> simp [lowBytes] <;> omega

/-- All four bytes of a word are the word. -/
theorem lowBytes_four (v : Word) : lowBytes 4 v = v := by
  apply BitVec.eq_of_getLsbD_eq
  intro i hi
  rw [lowBytes_getLsbD _ _ hi]
  simp [show i < 8 * 4 by omega]

/-- The value of a written line comes back from its byte lanes (R98): the low bytes of the width, for an offset aligned to it. -/
theorem lanes_round_trip (n : Width) (ofs : BitVec 12) (v : Word) (ha : ofs.toNat % n.bytes = 0) :
    (lowBytes n.bytes v <<< laneShift ofs) >>> laneShift ofs = lowBytes n.bytes v := by
  apply BitVec.eq_of_getLsbD_eq
  intro i hi
  simp only [laneShift, BitVec.getLsbD_ushiftRight, BitVec.getLsbD_shiftLeft, Nat.add_sub_cancel_left]
  by_cases h : 8 * (ofs.toNat % 4) + i < 32
  · have h2 : ¬ 8 * (ofs.toNat % 4) + i < 8 * (ofs.toNat % 4) := by omega
    simp [h, h2]
  · have h3 : (lowBytes n.bytes v).getLsbD i = false := by
      rw [lowBytes_getLsbD _ _ hi]
      have h4 : ¬ i < 8 * n.bytes := by
        cases n <;> simp only [Width.bytes] at ha ⊢ <;> omega
      simp [h4]
    simp [h, h3]

/-- The same of a line's own `bus_wdata` (R98). -/
theorem writeLanes_round_trip (n : Width) (ofs : BitVec 12) (v : Word) (ha : ofs.toNat % n.bytes = 0) :
    writeLanes n ofs v >>> laneShift ofs = lowBytes n.bytes v := by
  cases n with
  | byte => exact lanes_round_trip .byte ofs v ha
  | half => exact lanes_round_trip .half ofs v ha
  | word =>
    have h0 : laneShift ofs = 0 := by simp only [Width.bytes] at ha; simp [laneShift, ha]
    simp [writeLanes, h0, Width.bytes, lowBytes_four]

end Sys2Proof
end

