-- ==== Sys2Proof/Laws/State.lean ====
section
/-! SUPPORT. What each named update of the state leaves in each field: one lemma per field per update. -/

namespace Sys2Proof.Machine

section -- setStatus
variable (s : State) (x : Status)
@[simp] theorem State.setStatus_status : (s.setStatus x).status = x := rfl
@[simp] theorem State.setStatus_imgW : (s.setStatus x).imgW = s.imgW := rfl
@[simp] theorem State.setStatus_imgH : (s.setStatus x).imgH = s.imgH := rfl
@[simp] theorem State.setStatus_srcFlags : (s.setStatus x).srcFlags = s.srcFlags := rfl
@[simp] theorem State.setStatus_frmLen : (s.setStatus x).frmLen = s.frmLen := rfl
@[simp] theorem State.setStatus_latch : (s.setStatus x).latch = s.latch := rfl
@[simp] theorem State.setStatus_mem : (s.setStatus x).mem = s.mem := rfl
@[simp] theorem State.setStatus_dirty : (s.setStatus x).dirty = s.dirty := rfl
@[simp] theorem State.setStatus_delay : (s.setStatus x).delay = s.delay := rfl
@[simp] theorem State.setStatus_draws : (s.setStatus x).draws = s.draws := rfl
@[simp] theorem State.setStatus_host : (s.setStatus x).host = s.host := rfl
@[simp] theorem State.setStatus_bus : (s.setStatus x).bus = s.bus := rfl
@[simp] theorem State.setStatus_faults : (s.setStatus x).faults = s.faults := rfl
end

section -- setImgW
variable (s : State) (x : Word)
@[simp] theorem State.setImgW_status : (s.setImgW x).status = s.status := rfl
@[simp] theorem State.setImgW_imgW : (s.setImgW x).imgW = x := rfl
@[simp] theorem State.setImgW_imgH : (s.setImgW x).imgH = s.imgH := rfl
@[simp] theorem State.setImgW_srcFlags : (s.setImgW x).srcFlags = s.srcFlags := rfl
@[simp] theorem State.setImgW_frmLen : (s.setImgW x).frmLen = s.frmLen := rfl
@[simp] theorem State.setImgW_latch : (s.setImgW x).latch = s.latch := rfl
@[simp] theorem State.setImgW_mem : (s.setImgW x).mem = s.mem := rfl
@[simp] theorem State.setImgW_dirty : (s.setImgW x).dirty = s.dirty := rfl
@[simp] theorem State.setImgW_delay : (s.setImgW x).delay = s.delay := rfl
@[simp] theorem State.setImgW_draws : (s.setImgW x).draws = s.draws := rfl
@[simp] theorem State.setImgW_host : (s.setImgW x).host = s.host := rfl
@[simp] theorem State.setImgW_bus : (s.setImgW x).bus = s.bus := rfl
@[simp] theorem State.setImgW_faults : (s.setImgW x).faults = s.faults := rfl
end

section -- setImgH
variable (s : State) (x : Word)
@[simp] theorem State.setImgH_status : (s.setImgH x).status = s.status := rfl
@[simp] theorem State.setImgH_imgW : (s.setImgH x).imgW = s.imgW := rfl
@[simp] theorem State.setImgH_imgH : (s.setImgH x).imgH = x := rfl
@[simp] theorem State.setImgH_srcFlags : (s.setImgH x).srcFlags = s.srcFlags := rfl
@[simp] theorem State.setImgH_frmLen : (s.setImgH x).frmLen = s.frmLen := rfl
@[simp] theorem State.setImgH_latch : (s.setImgH x).latch = s.latch := rfl
@[simp] theorem State.setImgH_mem : (s.setImgH x).mem = s.mem := rfl
@[simp] theorem State.setImgH_dirty : (s.setImgH x).dirty = s.dirty := rfl
@[simp] theorem State.setImgH_delay : (s.setImgH x).delay = s.delay := rfl
@[simp] theorem State.setImgH_draws : (s.setImgH x).draws = s.draws := rfl
@[simp] theorem State.setImgH_host : (s.setImgH x).host = s.host := rfl
@[simp] theorem State.setImgH_bus : (s.setImgH x).bus = s.bus := rfl
@[simp] theorem State.setImgH_faults : (s.setImgH x).faults = s.faults := rfl
end

section -- setSrcFlags
variable (s : State) (x : Word)
@[simp] theorem State.setSrcFlags_status : (s.setSrcFlags x).status = s.status := rfl
@[simp] theorem State.setSrcFlags_imgW : (s.setSrcFlags x).imgW = s.imgW := rfl
@[simp] theorem State.setSrcFlags_imgH : (s.setSrcFlags x).imgH = s.imgH := rfl
@[simp] theorem State.setSrcFlags_srcFlags : (s.setSrcFlags x).srcFlags = x := rfl
@[simp] theorem State.setSrcFlags_frmLen : (s.setSrcFlags x).frmLen = s.frmLen := rfl
@[simp] theorem State.setSrcFlags_latch : (s.setSrcFlags x).latch = s.latch := rfl
@[simp] theorem State.setSrcFlags_mem : (s.setSrcFlags x).mem = s.mem := rfl
@[simp] theorem State.setSrcFlags_dirty : (s.setSrcFlags x).dirty = s.dirty := rfl
@[simp] theorem State.setSrcFlags_delay : (s.setSrcFlags x).delay = s.delay := rfl
@[simp] theorem State.setSrcFlags_draws : (s.setSrcFlags x).draws = s.draws := rfl
@[simp] theorem State.setSrcFlags_host : (s.setSrcFlags x).host = s.host := rfl
@[simp] theorem State.setSrcFlags_bus : (s.setSrcFlags x).bus = s.bus := rfl
@[simp] theorem State.setSrcFlags_faults : (s.setSrcFlags x).faults = s.faults := rfl
end

section -- setFrmLen
variable (s : State) (x : Word)
@[simp] theorem State.setFrmLen_status : (s.setFrmLen x).status = s.status := rfl
@[simp] theorem State.setFrmLen_imgW : (s.setFrmLen x).imgW = s.imgW := rfl
@[simp] theorem State.setFrmLen_imgH : (s.setFrmLen x).imgH = s.imgH := rfl
@[simp] theorem State.setFrmLen_srcFlags : (s.setFrmLen x).srcFlags = s.srcFlags := rfl
@[simp] theorem State.setFrmLen_frmLen : (s.setFrmLen x).frmLen = x := rfl
@[simp] theorem State.setFrmLen_latch : (s.setFrmLen x).latch = s.latch := rfl
@[simp] theorem State.setFrmLen_mem : (s.setFrmLen x).mem = s.mem := rfl
@[simp] theorem State.setFrmLen_dirty : (s.setFrmLen x).dirty = s.dirty := rfl
@[simp] theorem State.setFrmLen_delay : (s.setFrmLen x).delay = s.delay := rfl
@[simp] theorem State.setFrmLen_draws : (s.setFrmLen x).draws = s.draws := rfl
@[simp] theorem State.setFrmLen_host : (s.setFrmLen x).host = s.host := rfl
@[simp] theorem State.setFrmLen_bus : (s.setFrmLen x).bus = s.bus := rfl
@[simp] theorem State.setFrmLen_faults : (s.setFrmLen x).faults = s.faults := rfl
end

section -- setLatch
variable (s : State) (x : Word)
@[simp] theorem State.setLatch_status : (s.setLatch x).status = s.status := rfl
@[simp] theorem State.setLatch_imgW : (s.setLatch x).imgW = s.imgW := rfl
@[simp] theorem State.setLatch_imgH : (s.setLatch x).imgH = s.imgH := rfl
@[simp] theorem State.setLatch_srcFlags : (s.setLatch x).srcFlags = s.srcFlags := rfl
@[simp] theorem State.setLatch_frmLen : (s.setLatch x).frmLen = s.frmLen := rfl
@[simp] theorem State.setLatch_latch : (s.setLatch x).latch = x := rfl
@[simp] theorem State.setLatch_mem : (s.setLatch x).mem = s.mem := rfl
@[simp] theorem State.setLatch_dirty : (s.setLatch x).dirty = s.dirty := rfl
@[simp] theorem State.setLatch_delay : (s.setLatch x).delay = s.delay := rfl
@[simp] theorem State.setLatch_draws : (s.setLatch x).draws = s.draws := rfl
@[simp] theorem State.setLatch_host : (s.setLatch x).host = s.host := rfl
@[simp] theorem State.setLatch_bus : (s.setLatch x).bus = s.bus := rfl
@[simp] theorem State.setLatch_faults : (s.setLatch x).faults = s.faults := rfl
end

section -- setMem
variable (s : State) (x : Memory)
@[simp] theorem State.setMem_status : (s.setMem x).status = s.status := rfl
@[simp] theorem State.setMem_imgW : (s.setMem x).imgW = s.imgW := rfl
@[simp] theorem State.setMem_imgH : (s.setMem x).imgH = s.imgH := rfl
@[simp] theorem State.setMem_srcFlags : (s.setMem x).srcFlags = s.srcFlags := rfl
@[simp] theorem State.setMem_frmLen : (s.setMem x).frmLen = s.frmLen := rfl
@[simp] theorem State.setMem_latch : (s.setMem x).latch = s.latch := rfl
@[simp] theorem State.setMem_mem : (s.setMem x).mem = x := rfl
@[simp] theorem State.setMem_dirty : (s.setMem x).dirty = s.dirty := rfl
@[simp] theorem State.setMem_delay : (s.setMem x).delay = s.delay := rfl
@[simp] theorem State.setMem_draws : (s.setMem x).draws = s.draws := rfl
@[simp] theorem State.setMem_host : (s.setMem x).host = s.host := rfl
@[simp] theorem State.setMem_bus : (s.setMem x).bus = s.bus := rfl
@[simp] theorem State.setMem_faults : (s.setMem x).faults = s.faults := rfl
end

section -- setDirty
variable (s : State) (x : Bool)
@[simp] theorem State.setDirty_status : (s.setDirty x).status = s.status := rfl
@[simp] theorem State.setDirty_imgW : (s.setDirty x).imgW = s.imgW := rfl
@[simp] theorem State.setDirty_imgH : (s.setDirty x).imgH = s.imgH := rfl
@[simp] theorem State.setDirty_srcFlags : (s.setDirty x).srcFlags = s.srcFlags := rfl
@[simp] theorem State.setDirty_frmLen : (s.setDirty x).frmLen = s.frmLen := rfl
@[simp] theorem State.setDirty_latch : (s.setDirty x).latch = s.latch := rfl
@[simp] theorem State.setDirty_mem : (s.setDirty x).mem = s.mem := rfl
@[simp] theorem State.setDirty_dirty : (s.setDirty x).dirty = x := rfl
@[simp] theorem State.setDirty_delay : (s.setDirty x).delay = s.delay := rfl
@[simp] theorem State.setDirty_draws : (s.setDirty x).draws = s.draws := rfl
@[simp] theorem State.setDirty_host : (s.setDirty x).host = s.host := rfl
@[simp] theorem State.setDirty_bus : (s.setDirty x).bus = s.bus := rfl
@[simp] theorem State.setDirty_faults : (s.setDirty x).faults = s.faults := rfl
end

section -- setDelay
variable (s : State) (x : Nat)
@[simp] theorem State.setDelay_status : (s.setDelay x).status = s.status := rfl
@[simp] theorem State.setDelay_imgW : (s.setDelay x).imgW = s.imgW := rfl
@[simp] theorem State.setDelay_imgH : (s.setDelay x).imgH = s.imgH := rfl
@[simp] theorem State.setDelay_srcFlags : (s.setDelay x).srcFlags = s.srcFlags := rfl
@[simp] theorem State.setDelay_frmLen : (s.setDelay x).frmLen = s.frmLen := rfl
@[simp] theorem State.setDelay_latch : (s.setDelay x).latch = s.latch := rfl
@[simp] theorem State.setDelay_mem : (s.setDelay x).mem = s.mem := rfl
@[simp] theorem State.setDelay_dirty : (s.setDelay x).dirty = s.dirty := rfl
@[simp] theorem State.setDelay_delay : (s.setDelay x).delay = x := rfl
@[simp] theorem State.setDelay_draws : (s.setDelay x).draws = s.draws := rfl
@[simp] theorem State.setDelay_host : (s.setDelay x).host = s.host := rfl
@[simp] theorem State.setDelay_bus : (s.setDelay x).bus = s.bus := rfl
@[simp] theorem State.setDelay_faults : (s.setDelay x).faults = s.faults := rfl
end

section -- setHost
variable (s : State) (x : HostAgent)
@[simp] theorem State.setHost_status : (s.setHost x).status = s.status := rfl
@[simp] theorem State.setHost_imgW : (s.setHost x).imgW = s.imgW := rfl
@[simp] theorem State.setHost_imgH : (s.setHost x).imgH = s.imgH := rfl
@[simp] theorem State.setHost_srcFlags : (s.setHost x).srcFlags = s.srcFlags := rfl
@[simp] theorem State.setHost_frmLen : (s.setHost x).frmLen = s.frmLen := rfl
@[simp] theorem State.setHost_latch : (s.setHost x).latch = s.latch := rfl
@[simp] theorem State.setHost_mem : (s.setHost x).mem = s.mem := rfl
@[simp] theorem State.setHost_dirty : (s.setHost x).dirty = s.dirty := rfl
@[simp] theorem State.setHost_delay : (s.setHost x).delay = s.delay := rfl
@[simp] theorem State.setHost_draws : (s.setHost x).draws = s.draws := rfl
@[simp] theorem State.setHost_host : (s.setHost x).host = x := rfl
@[simp] theorem State.setHost_bus : (s.setHost x).bus = s.bus := rfl
@[simp] theorem State.setHost_faults : (s.setHost x).faults = s.faults := rfl
end

section -- setBus
variable (s : State) (x : BusResp)
@[simp] theorem State.setBus_status : (s.setBus x).status = s.status := rfl
@[simp] theorem State.setBus_imgW : (s.setBus x).imgW = s.imgW := rfl
@[simp] theorem State.setBus_imgH : (s.setBus x).imgH = s.imgH := rfl
@[simp] theorem State.setBus_srcFlags : (s.setBus x).srcFlags = s.srcFlags := rfl
@[simp] theorem State.setBus_frmLen : (s.setBus x).frmLen = s.frmLen := rfl
@[simp] theorem State.setBus_latch : (s.setBus x).latch = s.latch := rfl
@[simp] theorem State.setBus_mem : (s.setBus x).mem = s.mem := rfl
@[simp] theorem State.setBus_dirty : (s.setBus x).dirty = s.dirty := rfl
@[simp] theorem State.setBus_delay : (s.setBus x).delay = s.delay := rfl
@[simp] theorem State.setBus_draws : (s.setBus x).draws = s.draws := rfl
@[simp] theorem State.setBus_host : (s.setBus x).host = s.host := rfl
@[simp] theorem State.setBus_bus : (s.setBus x).bus = x := rfl
@[simp] theorem State.setBus_faults : (s.setBus x).faults = s.faults := rfl
end

section -- advance
variable (s : State) (x : Nat)
@[simp] theorem State.advance_status : (s.advance x).status = s.status := rfl
@[simp] theorem State.advance_imgW : (s.advance x).imgW = s.imgW := rfl
@[simp] theorem State.advance_imgH : (s.advance x).imgH = s.imgH := rfl
@[simp] theorem State.advance_srcFlags : (s.advance x).srcFlags = s.srcFlags := rfl
@[simp] theorem State.advance_frmLen : (s.advance x).frmLen = s.frmLen := rfl
@[simp] theorem State.advance_latch : (s.advance x).latch = s.latch := rfl
@[simp] theorem State.advance_mem : (s.advance x).mem = s.mem := rfl
@[simp] theorem State.advance_dirty : (s.advance x).dirty = s.dirty := rfl
@[simp] theorem State.advance_delay : (s.advance x).delay = s.delay := rfl
@[simp] theorem State.advance_draws : (s.advance x).draws = s.draws + x := rfl
@[simp] theorem State.advance_host : (s.advance x).host = s.host := rfl
@[simp] theorem State.advance_bus : (s.advance x).bus = s.bus := rfl
@[simp] theorem State.advance_faults : (s.advance x).faults = s.faults := rfl
end

section -- issued
variable (st : Status)
@[simp] theorem Status.issued_busy : st.issued.busy = true := rfl
@[simp] theorem Status.issued_done : st.issued.done = false := rfl
@[simp] theorem Status.issued_errcode : st.issued.errcode = 0 := rfl
@[simp] theorem Status.issued_hinib : st.issued.hinib = false := rfl
@[simp] theorem Status.issued_overrun : st.issued.overrun = st.overrun := rfl
@[simp] theorem Status.issued_hazard : st.issued.hazard = st.hazard := rfl
end

section -- completed
variable (st : Status) (c : BitVec 4)
@[simp] theorem Status.completed_busy : (st.completed c).busy = false := rfl
@[simp] theorem Status.completed_done : (st.completed c).done = true := rfl
@[simp] theorem Status.completed_errcode : (st.completed c).errcode = c := rfl
@[simp] theorem Status.completed_hinib : (st.completed c).hinib = st.hinib := rfl
@[simp] theorem Status.completed_overrun : (st.completed c).overrun = st.overrun := rfl
@[simp] theorem Status.completed_hazard : (st.completed c).hazard = st.hazard := rfl
end

section -- overrunSet
variable (st : Status)
@[simp] theorem Status.overrunSet_busy : st.overrunSet.busy = st.busy := rfl
@[simp] theorem Status.overrunSet_done : st.overrunSet.done = st.done := rfl
@[simp] theorem Status.overrunSet_errcode : st.overrunSet.errcode = st.errcode := rfl
@[simp] theorem Status.overrunSet_hinib : st.overrunSet.hinib = st.hinib := rfl
@[simp] theorem Status.overrunSet_overrun : st.overrunSet.overrun = true := rfl
@[simp] theorem Status.overrunSet_hazard : st.overrunSet.hazard = st.hazard := rfl
end

section -- hazardSet
variable (st : Status)
@[simp] theorem Status.hazardSet_busy : st.hazardSet.busy = st.busy := rfl
@[simp] theorem Status.hazardSet_done : st.hazardSet.done = st.done := rfl
@[simp] theorem Status.hazardSet_errcode : st.hazardSet.errcode = st.errcode := rfl
@[simp] theorem Status.hazardSet_hinib : st.hazardSet.hinib = st.hinib := rfl
@[simp] theorem Status.hazardSet_overrun : st.hazardSet.overrun = st.overrun := rfl
@[simp] theorem Status.hazardSet_hazard : st.hazardSet.hazard = true := rfl
end

section -- withHinib
variable (st : Status) (b : Bool)
@[simp] theorem Status.withHinib_busy : (st.withHinib b).busy = st.busy := rfl
@[simp] theorem Status.withHinib_done : (st.withHinib b).done = st.done := rfl
@[simp] theorem Status.withHinib_errcode : (st.withHinib b).errcode = st.errcode := rfl
@[simp] theorem Status.withHinib_hinib : (st.withHinib b).hinib = b := rfl
@[simp] theorem Status.withHinib_overrun : (st.withHinib b).overrun = st.overrun := rfl
@[simp] theorem Status.withHinib_hazard : (st.withHinib b).hazard = st.hazard := rfl
end

section -- recordFault
variable (s : State) (f : Fault)
@[simp] theorem State.recordFault_status : (s.recordFault f).status = s.status := by unfold State.recordFault; split <;> rfl
@[simp] theorem State.recordFault_imgW : (s.recordFault f).imgW = s.imgW := by unfold State.recordFault; split <;> rfl
@[simp] theorem State.recordFault_imgH : (s.recordFault f).imgH = s.imgH := by unfold State.recordFault; split <;> rfl
@[simp] theorem State.recordFault_srcFlags : (s.recordFault f).srcFlags = s.srcFlags := by unfold State.recordFault; split <;> rfl
@[simp] theorem State.recordFault_frmLen : (s.recordFault f).frmLen = s.frmLen := by unfold State.recordFault; split <;> rfl
@[simp] theorem State.recordFault_latch : (s.recordFault f).latch = s.latch := by unfold State.recordFault; split <;> rfl
@[simp] theorem State.recordFault_mem : (s.recordFault f).mem = s.mem := by unfold State.recordFault; split <;> rfl
@[simp] theorem State.recordFault_dirty : (s.recordFault f).dirty = s.dirty := by unfold State.recordFault; split <;> rfl
@[simp] theorem State.recordFault_delay : (s.recordFault f).delay = s.delay := by unfold State.recordFault; split <;> rfl
@[simp] theorem State.recordFault_draws : (s.recordFault f).draws = s.draws := by unfold State.recordFault; split <;> rfl
@[simp] theorem State.recordFault_host : (s.recordFault f).host = s.host := by unfold State.recordFault; split <;> rfl
@[simp] theorem State.recordFault_bus : (s.recordFault f).bus = s.bus := by unfold State.recordFault; split <;> rfl

/-- A recorded fault is there, and so is every fault recorded before. -/
@[simp] theorem State.mem_recordFault_faults (g : Fault) : g ∈ (s.recordFault f).faults ↔ g = f ∨ g ∈ s.faults := by
  unfold State.recordFault
  split
  · constructor
    · exact Or.inr
    · rintro (rfl | h) <;> assumption
  · simp [or_comm]

/-- Recording a fault changes the record alone. -/
theorem State.recordFault_frame : s.recordFault f = { s with faults := (s.recordFault f).faults } := by
  unfold State.recordFault; split <;> rfl

/-- Recording a fault twice records it once. -/
theorem State.recordFault_of_mem (h : f ∈ s.faults) : s.recordFault f = s := by
  simp [State.recordFault, h]
end

/-- Two updates of one field: the later one stands. -/
@[simp] theorem State.setStatus_setStatus (s : State) (x y : Status) : (s.setStatus x).setStatus y = s.setStatus y := rfl

section -- complete, raise, completeHazard
variable (s : State) (c : BitVec 4) (e : ErrorKind)
@[simp] theorem State.complete_status : (s.complete c).status = s.status.completed c := rfl
@[simp] theorem State.complete_mem : (s.complete c).mem = s.mem := rfl
@[simp] theorem State.complete_draws : (s.complete c).draws = s.draws := rfl
@[simp] theorem State.complete_frmLen : (s.complete c).frmLen = s.frmLen := rfl
@[simp] theorem State.raise_status : (s.raise e).status = s.status.completed e.code := rfl
@[simp] theorem State.raise_mem : (s.raise e).mem = s.mem := rfl
@[simp] theorem State.raise_draws : (s.raise e).draws = s.draws := rfl
@[simp] theorem State.raise_frmLen : (s.raise e).frmLen = s.frmLen := rfl
@[simp] theorem State.completeHazard_status :
    (s.completeHazard c).status = (s.status.completed c).withHinib (Config.freeBit s.draws) := rfl
@[simp] theorem State.completeHazard_mem : (s.completeHazard c).mem = s.mem := rfl
@[simp] theorem State.completeHazard_draws : (s.completeHazard c).draws = s.draws + 80 := rfl
@[simp] theorem State.completeHazard_frmLen : (s.completeHazard c).frmLen = s.frmLen := rfl
end

end Sys2Proof.Machine
end

