-- ==== Sys2Proof/Laws/Memory.lean ====
section
/-! SUPPORT. The laws of the cells and of the memories: a read after a write, the canonical form, and little-endian
access (spec 10_state.md R38, 20_memory.md R61, R64). -/

namespace Sys2Proof.Machine

/-! Cells. -/

section
variable {α : Type}

/-- A read after a write: the value written there, everything else as before. -/
@[simp] theorem cellsRead_write (m : List (Nat × α)) (a : Nat) (v : α) (b : Nat) :
    cellsRead (cellsWrite m a v) b = if b = a then some v else cellsRead m b := by
  induction m with
  | nil => simp [cellsWrite, cellsRead]
  | cons p rest ih =>
    obtain ⟨k, x⟩ := p
    simp only [cellsWrite]
    split
    · simp [cellsRead]
    · split
      · subst_vars
        by_cases hb : b = k <;> simp [cellsRead, hb]
      · by_cases hb : b = k
        · subst hb
          have hne : ¬ b = a := fun e => by omega
          simp [cellsRead, hne]
        · simp [cellsRead, hb, ih]

/-- A read after a fill. -/
@[simp] theorem cellsRead_fill (m : List (Nat × α)) (base : Nat) (f : Nat → α) (n b : Nat) :
    cellsRead (cellsFill m base f n) b = if base ≤ b ∧ b < base + n then some (f (b - base)) else cellsRead m b := by
  induction n with
  | zero =>
    have h : ¬ (base ≤ b ∧ b < base + 0) := by omega
    simp only [cellsFill, if_neg h]
  | succ n ih =>
    rw [cellsFill, cellsRead_write, ih]
    by_cases hb : b = base + n
    · subst hb
      have h : base ≤ base + n ∧ base + n < base + (n + 1) := by omega
      simp only [if_pos h, if_true, Nat.add_sub_cancel_left]
    · have h : (base ≤ b ∧ b < base + (n + 1)) ↔ (base ≤ b ∧ b < base + n) := by omega
      simp only [if_neg hb, h]

/-- What a table holds after a write: the entry written, and entries it held before. -/
theorem mem_cellsWrite {m : List (Nat × α)} {a : Nat} {v : α} {p : Nat × α} (h : p ∈ cellsWrite m a v) :
    p = (a, v) ∨ p ∈ m := by
  induction m with
  | nil => simpa [cellsWrite] using h
  | cons q rest ih =>
    obtain ⟨k, x⟩ := q
    simp only [cellsWrite] at h
    split at h
    · simpa using h
    · split at h
      · rcases List.mem_cons.mp h with h | h
        · exact .inl h
        · exact .inr (List.mem_cons_of_mem _ h)
      · rcases List.mem_cons.mp h with h | h
        · exact .inr (h ▸ List.mem_cons_self)
        · exact (ih h).imp_right (List.mem_cons_of_mem _)

/-- A write keeps the keys strictly rising. -/
theorem cellsWrite_rising {m : List (Nat × α)} (h : m.Pairwise (fun p q => p.1 < q.1)) (a : Nat) (v : α) :
    (cellsWrite m a v).Pairwise (fun p q => p.1 < q.1) := by
  induction m with
  | nil => simp [cellsWrite]
  | cons q rest ih =>
    obtain ⟨k, x⟩ := q
    obtain ⟨hk, hr⟩ := List.pairwise_cons.mp h
    simp only [cellsWrite]
    split
    case isTrue hlt =>
      refine List.pairwise_cons.mpr ⟨fun p hp => ?_, h⟩
      rcases List.mem_cons.mp hp with rfl | hp
      · exact hlt
      · exact Nat.lt_trans hlt (hk p hp)
    case isFalse hge =>
      split
      case isTrue heq => subst heq; exact List.pairwise_cons.mpr ⟨hk, hr⟩
      case isFalse hne =>
        refine List.pairwise_cons.mpr ⟨fun p hp => ?_, ih hr⟩
        rcases mem_cellsWrite hp with rfl | hp
        · simp only; omega
        · exact hk p hp

/-- Writing a value again changes nothing. -/
theorem cellsWrite_again (m : List (Nat × α)) (a : Nat) (v : α) : cellsWrite (cellsWrite m a v) a v = cellsWrite m a v := by
  induction m with
  | nil => simp [cellsWrite]
  | cons q rest ih =>
    obtain ⟨k, x⟩ := q
    by_cases h1 : a < k
    · simp [cellsWrite, h1]
    · by_cases h2 : a = k
      · simp [cellsWrite, h2]
      · simp [cellsWrite, h1, h2, ih]

/-- A value that a write would not change is not changed by a write to another key either. -/
theorem cellsWrite_stays {m : List (Nat × α)} {a b : Nat} {v w : α} (hab : a ≠ b) (h : cellsWrite m a v = m) :
    cellsWrite (cellsWrite m b w) a v = cellsWrite m b w := by
  induction m with
  | nil => simp [cellsWrite] at h
  | cons q rest ih =>
    obtain ⟨k, x⟩ := q
    by_cases h1 : a < k
    · simp only [cellsWrite, h1, if_true] at h
      exact absurd (congrArg List.length h) (by simp)
    · by_cases h2 : a = k
      · subst h2
        simp only [cellsWrite, Nat.lt_irrefl, if_false, if_true, List.cons.injEq, Prod.mk.injEq, true_and, and_true] at h
        by_cases h3 : b < a
        · have h4 : ¬ a < b := by omega
          simp [cellsWrite, h3, h4, hab, h]
        · have h4 : ¬ b = a := fun e => hab e.symm
          simp [cellsWrite, h3, h4, h]
      · simp only [cellsWrite, h1, h2, if_false, List.cons.injEq, true_and] at h
        by_cases h3 : b < k
        · have h4 : ¬ a < b := by omega
          simp [cellsWrite, h3, h4, hab, h1, h2, h]
        · by_cases h4 : b = k
          · simp [cellsWrite, h4, h1, h2, h]
          · simp [cellsWrite, h3, h4, h1, h2, ih h]

/-- Filling again changes nothing. -/
theorem cellsFill_again (m : List (Nat × α)) (base : Nat) (f : Nat → α) (n : Nat) :
    cellsFill (cellsFill m base f n) base f n = cellsFill m base f n := by
  have stays : ∀ n, ∀ k < n, cellsWrite (cellsFill m base f n) (base + k) (f k) = cellsFill m base f n := by
    intro n
    induction n with
    | zero => intro k hk; omega
    | succ n ih =>
      intro k hk
      by_cases e : k = n
      · subst e; exact cellsWrite_again _ _ _
      · exact cellsWrite_stays (by omega) (ih k (by omega))
  have fixed : ∀ j ≤ n, cellsFill (cellsFill m base f n) base f j = cellsFill m base f n := by
    intro j
    induction j with
    | zero => intro _; rfl
    | succ j ih => intro hj; rw [cellsFill, ih (by omega)]; exact stays n j (by omega)
  exact fixed n (Nat.le_refl n)

end

/-! The memories. -/

@[simp] theorem Memory.read_write (m : Memory) (a : Nat) (v : Byte) (b : Nat) :
    (m.write a v).read b = if b = a then some v else m.read b := cellsRead_write m a v b

@[simp] theorem Memory.read_fill (m : Memory) (base : Nat) (f : Nat → Byte) (n b : Nat) :
    (m.fill base f n).read b = if base ≤ b ∧ b < base + n then some (f (b - base)) else m.read b :=
  cellsRead_fill m base f n b

/-- A byte the fill covers. -/
theorem Memory.read_fill_at (m : Memory) (base : Nat) (f : Nat → Byte) {n k : Nat} (h : k < n) :
    (m.fill base f n).read (base + k) = some (f k) := by
  have : base ≤ base + k ∧ base + k < base + n := by omega
  simp [this]

/-- A byte the fill does not cover. -/
theorem Memory.read_fill_off (m : Memory) (base : Nat) (f : Nat → Byte) {n b : Nat} (h : b < base ∨ base + n ≤ b) :
    (m.fill base f n).read b = m.read b := by
  have : ¬ (base ≤ b ∧ b < base + n) := by omega
  simp only [Memory.read_fill, if_neg this]

/-- The memory after reset is in canonical form. -/
theorem Memory.wf_nil : Memory.wf [] := ⟨List.Pairwise.nil, by simp, by simp⟩

/-- Storing a byte of PIX, GLY or FRM keeps the canonical form. -/
theorem Memory.wf_write {m : Memory} (h : m.wf) {a : Nat} (ha : isStorage a = true) (v : Byte) : (m.write a v).wf := by
  obtain ⟨h1, h2, h3⟩ := h
  refine ⟨cellsWrite_rising h1 a v, fun p hp => ?_, fun p _ => by simp [Memory.unlisted]⟩
  rcases mem_cellsWrite hp with rfl | hp
  · exact ha
  · exact h2 p hp

/-- Filling bytes of PIX, GLY or FRM keeps the canonical form. -/
theorem Memory.wf_fill {m : Memory} (h : m.wf) {base : Nat} (f : Nat → Byte) {n : Nat}
    (hs : ∀ j < n, isStorage (base + j) = true) : (m.fill base f n).wf := by
  induction n with
  | zero => exact h
  | succ n ih => exact Memory.wf_write (ih fun j hj => hs j (by omega)) (hs n (by omega)) _

/-! Regions. -/

/-- The bytes of the three memories by offset (R67). -/
theorem isStorage_iff (a : Nat) : isStorage a = true ↔
    (0x100 ≤ a ∧ a ≤ 0x14F) ∨ (0x200 ≤ a ∧ a ≤ 0x24F) ∨ (0x800 ≤ a ∧ a ≤ 0xCFF) := by
  unfold isStorage region
  split_ifs <;> simp <;> omega

/-- The region of an offset is a memory exactly in its window (R65). -/
theorem region_storage (a : Nat) (m : Storage) : region a = .storage m ↔
    match m with
    | .gly => 0x100 ≤ a ∧ a ≤ 0x14F
    | .frm => 0x200 ≤ a ∧ a ≤ 0x24F
    | .pix => 0x800 ≤ a ∧ a ≤ 0xCFF := by
  cases m <;> unfold region <;> split_ifs <;> simp <;> omega

theorem isStorage_gly {j : Nat} (h : j < 80) : isStorage (glyBase + j) = true := by
  rw [isStorage_iff]; unfold glyBase; omega

theorem isStorage_frm {j : Nat} (h : j < 80) : isStorage (frmBase + j) = true := by
  rw [isStorage_iff]; unfold frmBase; omega

/-- `sizeBytes` by cases. -/
theorem sizeBytes_some {size : BitVec 2} {n : Nat} (h : sizeBytes size = some n) :
    (size = 0 ∧ n = 1) ∨ (size = 1 ∧ n = 2) ∨ (size = 2 ∧ n = 4) := by
  unfold sizeBytes at h
  split at h
  · simp_all
  · split at h
    · simp_all
    · split at h <;> simp_all

/-- What a granted access reaches: an aligned register, or aligned bytes of a memory (R65). -/
theorem checkAccess_ok {ofs : BitVec 12} {size : BitVec 2} {t : Target} (h : checkAccess ofs size = .ok t) :
    (t = .reg (regAt ofs.toNat) ∧ size = 2 ∧ ofs.toNat % 4 = 0 ∧ ofs.toNat ≤ 0x017) ∨
    ∃ m n, t = .mem m n ∧ sizeBytes size = some n ∧ ofs.toNat % n = 0 ∧ region ofs.toNat = .storage m := by
  unfold checkAccess at h
  split at h
  · cases h
  · rename_i n hn
    split at h
    · cases h
    · rename_i ha
      split at h
      · cases h
      · rename_i hr
        split at h
        · cases h
        · rename_i h4
          cases h
          have hle : ofs.toNat ≤ 0x017 := by
            by_contra hc
            unfold region at hr
            rw [if_neg hc] at hr
            repeat' split at hr
            all_goals cases hr
          rcases sizeBytes_some hn with ⟨rfl, rfl⟩ | ⟨rfl, rfl⟩ | ⟨rfl, rfl⟩
          · omega
          · omega
          · exact .inl ⟨rfl, rfl, by omega, hle⟩
      · rename_i m hr
        cases h
        exact .inr ⟨m, n, rfl, hn, by omega, hr⟩

/-- The widths of the accesses a memory grants (R63). -/
theorem checkAccess_storage_size {ofs : BitVec 12} {size : BitVec 2} {m : Storage} {n : Nat}
    (h : checkAccess ofs size = .ok (.mem m n)) : n = 1 ∨ n = 2 ∨ n = 4 := by
  rcases checkAccess_ok h with ⟨h, -⟩ | ⟨m', n', he, hs, -, -⟩
  · cases h
  · cases he
    rcases sizeBytes_some hs with ⟨-, h⟩ | ⟨-, h⟩ | ⟨-, h⟩ <;> simp [h]

/-- The six register offsets (R22). -/
theorem regAt_cases {ofs : BitVec 12} (ha : ofs.toNat % 4 = 0) (hl : ofs.toNat ≤ 0x017) :
    (ofs = 0x000 ∧ regAt ofs.toNat = .cmd) ∨ (ofs = 0x004 ∧ regAt ofs.toNat = .status) ∨
    (ofs = 0x008 ∧ regAt ofs.toNat = .imgW) ∨ (ofs = 0x00C ∧ regAt ofs.toNat = .imgH) ∨
    (ofs = 0x010 ∧ regAt ofs.toNat = .srcFlags) ∨ (ofs = 0x014 ∧ regAt ofs.toNat = .frmLen) := by
  have h : ofs.toNat = 0 ∨ ofs.toNat = 4 ∨ ofs.toNat = 8 ∨ ofs.toNat = 12 ∨ ofs.toNat = 16 ∨ ofs.toNat = 20 := by omega
  have e : ∀ n : Nat, n < 4096 → ofs.toNat = n → ofs = BitVec.ofNat 12 n := by
    intro n hn h
    apply BitVec.eq_of_toNat_eq
    rw [h, BitVec.toNat_ofNat, Nat.mod_eq_of_lt (by omega)]
  rcases h with h | h | h | h | h | h
  · exact .inl ⟨e _ (by decide) h, by rw [h]; rfl⟩
  · exact .inr (.inl ⟨e _ (by decide) h, by rw [h]; rfl⟩)
  · exact .inr (.inr (.inl ⟨e _ (by decide) h, by rw [h]; rfl⟩))
  · exact .inr (.inr (.inr (.inl ⟨e _ (by decide) h, by rw [h]; rfl⟩)))
  · exact .inr (.inr (.inr (.inr (.inl ⟨e _ (by decide) h, by rw [h]; rfl⟩))))
  · exact .inr (.inr (.inr (.inr (.inr ⟨e _ (by decide) h, by rw [h]; rfl⟩))))

/-- CMD is reached at offset 0 and nowhere else (R22, R23). -/
theorem target_cmd_iff {ofs : BitVec 12} {size : BitVec 2} {t : Target} (h : checkAccess ofs size = .ok t) :
    t = .reg .cmd ↔ ofs = 0x000 := by
  rcases checkAccess_ok h with ⟨rfl, -, ha, hl⟩ | ⟨m, n, rfl, -, -, hr⟩
  · rcases regAt_cases ha hl with ⟨rfl, h⟩ | ⟨rfl, h⟩ | ⟨rfl, h⟩ | ⟨rfl, h⟩ | ⟨rfl, h⟩ | ⟨rfl, h⟩ <;> rw [h] <;> simp
  · simp; rintro rfl; simp [region] at hr

/-- Every byte of a granted access to a memory is a byte of the memory. -/
theorem isStorage_of_checkAccess {ofs : BitVec 12} {size : BitVec 2} {m : Storage} {n : Nat}
    (h : checkAccess ofs size = .ok (.mem m n)) : ∀ j < n, isStorage (ofs.toNat + j) = true := by
  rcases checkAccess_ok h with ⟨h, -⟩ | ⟨m', n', he, hs, ha, hr⟩
  · cases h
  · cases he
    intro j hj
    rw [isStorage_iff]
    have hb := (region_storage _ _).mp hr
    rcases sizeBytes_some hs with ⟨-, rfl⟩ | ⟨-, rfl⟩ | ⟨-, rfl⟩ <;> cases m <;> simp only at hb <;> omega

/-! Little-endian access. -/

/-- Bit `i` of a little-endian value is bit `i mod 8` of byte `i div 8` (R61). -/
theorem memRead_getLsbD (s : State) (ofs n i : Nat) (hi : i < 32) :
    (s.memRead ofs n).getLsbD i = (decide (i < 8 * n) && (s.byteAt (ofs + i / 8) (i / 8)).getLsbD (i % 8)) := by
  induction n with
  | zero => simp [State.memRead]
  | succ n ih =>
    rw [State.memRead, BitVec.getLsbD_or, ih, BitVec.getLsbD_shiftLeft, BitVec.getLsbD_setWidth]
    by_cases h1 : i < 8 * n
    · have h2 : i < 8 * (n + 1) := by omega
      simp [h1, h2]
    · by_cases h3 : i < 8 * (n + 1)
      · have h4 : i / 8 = n := by omega
        have h5 : i % 8 = i - 8 * n := by omega
        have h6 : i - 8 * n < 32 := by omega
        simp [h1, h3, h4, h5, h6, hi]
      · have h7 : 8 ≤ i - 8 * n := by omega
        simp [h1, h3, BitVec.getLsbD_of_ge _ _ h7]

/-- Byte `j` of a little-endian value (R61): the byte at `ofs + j`, or 0 above the width. -/
theorem byteOf_memRead (s : State) (ofs n : Nat) {j : Nat} (hj : j < 4) :
    byteOf (s.memRead ofs n) j = if j < n then s.byteAt (ofs + j) j else 0 := by
  apply BitVec.eq_of_getLsbD_eq
  intro i hi
  have hlt : 8 * j + i < 32 := by omega
  have hd : (8 * j + i) / 8 = j := by omega
  have hm : (8 * j + i) % 8 = i := by omega
  have hb : (8 * j + i < 8 * n) ↔ j < n := by omega
  simp only [byteOf, BitVec.getLsbD_setWidth, BitVec.getLsbD_ushiftRight, memRead_getLsbD _ _ _ _ hlt, hd, hm, hb, hi,
    decide_true, Bool.true_and]
  split <;> simp [*]

/-- Two words with the same four bytes are the same word. -/
theorem word_ext_bytes {v w : Word} (h : ∀ j < 4, byteOf v j = byteOf w j) : v = w := by
  apply BitVec.eq_of_getLsbD_eq
  intro i hi
  have := congrArg (fun b => BitVec.getLsbD b (i % 8)) (h (i / 8) (by omega))
  have hm : i % 8 < 8 := by omega
  have hd : 8 * (i / 8) + i % 8 = i := by omega
  simpa [byteOf, hm, hd] using this

/-- What a little-endian store leaves in each byte (R61). -/
theorem memWrite_read (s : State) (ofs n : Nat) (v : Word) (a : Nat) :
    (s.memWrite ofs n v).mem.read a = if ofs ≤ a ∧ a < ofs + n then some (byteOf v (a - ofs)) else s.mem.read a := by
  simp [State.memWrite]

/-- Byte `j` is the field of bits 8j+7 : 8j (R61). -/
theorem byteOf_eq (v : Word) (j : Nat) : byteOf v j = v.extractLsb' (8 * j) 8 := by
  apply BitVec.eq_of_getLsbD_eq; intro i hi
  simp [byteOf, hi]

/-- A written byte reads as itself, whatever free value the read reserves. -/
theorem byteAt_of_read {s : State} {a : Nat} {b : Byte} (h : s.mem.read a = some b) (j : Nat) : s.byteAt a j = b := by
  simp [State.byteAt, h]

end Sys2Proof.Machine
end

