-- ==== Sys2Proof/Laws/Bus.lean ====
section
/-! SUPPORT. What one bus access does, once: its three cases, what it never touches, and the bits of what it moves
(spec 20_memory.md R60-R70). -/

namespace Sys2Proof.Machine

/-- The three cases of an access: refused, a granted write, a granted read. -/
theorem busAccess_cases (s : State) (r : BusReq) :
    ((∃ e, checkAccess r.addr r.size = .error e) ∧ s.busAccess r = s.refuseAccess r) ∨
    (∃ t, checkAccess r.addr r.size = .ok t ∧ r.we = true ∧ s.busAccess r = s.grantWrite t r) ∨
    (∃ t, checkAccess r.addr r.size = .ok t ∧ r.we = false ∧ s.busAccess r = s.grantRead t r) := by
  cases hc : checkAccess r.addr r.size with
  | error e => exact .inl ⟨⟨e, rfl⟩, by simp [State.busAccess, hc]⟩
  | ok t =>
    cases hw : r.we
    · exact .inr (.inr ⟨t, rfl, rfl, by simp [State.busAccess, hc, hw]⟩)
    · exact .inr (.inl ⟨t, rfl, rfl, by simp [State.busAccess, hc, hw]⟩)

/-- A granted write. -/
theorem busAccess_write {s : State} {r : BusReq} {t : Target} (hw : r.we = true)
    (hc : checkAccess r.addr r.size = .ok t) : s.busAccess r = s.grantWrite t r := by
  simp [State.busAccess, hc, hw]

/-- A granted read. -/
theorem busAccess_read {s : State} {r : BusReq} {t : Target} (hw : r.we = false)
    (hc : checkAccess r.addr r.size = .ok t) : s.busAccess r = s.grantRead t r := by
  simp [State.busAccess, hc, hw]

/-- A refused access. -/
theorem busAccess_refused {s : State} {r : BusReq} {e : BusRefusal} (hc : checkAccess r.addr r.size = .error e) :
    s.busAccess r = s.refuseAccess r := by
  simp [State.busAccess, hc]

/-- Writes to CMD and STATUS, and to nothing else, are no hazard (R69). -/
theorem hazardFree_iff {ofs : BitVec 12} {size : BitVec 2} {t : Target} (h : checkAccess ofs size = .ok t) :
    t.hazardFree = true ↔ ofs = 0x000 ∨ ofs = 0x004 := by
  rcases checkAccess_ok h with ⟨rfl, -, ha, hl⟩ | ⟨m, n, rfl, -, -, hr⟩
  · rcases regAt_cases ha hl with ⟨rfl, h⟩ | ⟨rfl, h⟩ | ⟨rfl, h⟩ | ⟨rfl, h⟩ | ⟨rfl, h⟩ | ⟨rfl, h⟩ <;>
      rw [h] <;> simp [Target.hazardFree]
  · simp [Target.hazardFree]
    constructor <;> rintro rfl <;> simp [region] at hr

/-- What the block takes from the lanes is what the line wrote (R98). -/
theorem busValue_writeReq (n : Width) (ofs : BitVec 12) (v : Word) (ha : ofs.toNat % n.bytes = 0) :
    busValue (writeReq n ofs v) = lowBytes n.bytes v := writeLanes_round_trip n ofs v ha

/-- A granted write of the host's notation. -/
theorem busAccess_writeReq (s : State) {n : Width} {ofs : BitVec 12} {t : Target} (v : Word)
    (hc : checkAccess ofs n.sizeCode = .ok t) (ha : ofs.toNat % n.bytes = 0) :
    s.busAccess (writeReq n ofs v) = (s.hostWrite t ofs (lowBytes n.bytes v)).setBus { rdata := none, err := false } := by
  rw [busAccess_write (r := writeReq n ofs v) rfl hc, State.grantWrite, busValue_writeReq n ofs v ha]
  rfl

/-- SRC_FLAGS keeps the two low bits (R28). -/
theorem srcFlagsMask_eq (v : Word) : srcFlagsMask v = v &&& 3 := by
  apply BitVec.eq_of_getLsbD_eq; intro i hi
  have : (3 : Word).getLsbD i = decide (i < 2) := by revert i; decide
  rw [BitVec.getLsbD_and, this]
  simp only [srcFlagsMask, BitVec.getLsbD_setWidth, hi, decide_true, Bool.true_and]
  exact Bool.and_comm _ _

/-! What issue, hazards and register writes leave. -/

/-- Issue by cases (R34). -/
theorem issue_eq (s : State) (w : Word) : s.issue w =
    if s.status.busy then { s with status := { s.status with overrun := true } }
    else { s with status := { s.status with busy := true, done := false, errcode := 0, hinib := false },
                  latch := w, dirty := false, delay := Config.latency s.draws, draws := s.draws + 1 } := rfl

@[simp] theorem issue_host (s : State) (w : Word) : (s.issue w).host = s.host := by
  rw [issue_eq]; split <;> rfl
@[simp] theorem issue_faults (s : State) (w : Word) : (s.issue w).faults = s.faults := by
  rw [issue_eq]; split <;> rfl
@[simp] theorem issue_mem (s : State) (w : Word) : (s.issue w).mem = s.mem := by
  rw [issue_eq]; split <;> rfl
@[simp] theorem issue_bus (s : State) (w : Word) : (s.issue w).bus = s.bus := by
  rw [issue_eq]; split <;> rfl
@[simp] theorem issue_srcFlags (s : State) (w : Word) : (s.issue w).srcFlags = s.srcFlags := by
  rw [issue_eq]; split <;> rfl

/-- An issue never ends a command in flight, and is then dropped (R34). -/
theorem issue_busy {s : State} (h : s.status.busy = true) (w : Word) :
    s.issue w = { s with status := { s.status with overrun := true } } := by
  rw [issue_eq]; simp [h]

/-- A hazard-free write, or any write while idle, notes nothing (R69). -/
theorem noteHazard_of_not {s : State} {t : Target} (h : (s.status.busy && !t.hazardFree) = false) (ofs : BitVec 12) :
    s.noteHazard t ofs = s := by
  simp only [State.noteHazard, h, Bool.false_eq_true, if_false]

/-- A hazardous write (R69, R203). -/
theorem noteHazard_of {s : State} {t : Target} (h : (s.status.busy && !t.hazardFree) = true) (ofs : BitVec 12) :
    s.noteHazard t ofs = ((s.setStatus s.status.hazardSet).setDirty true).recordFault (.hostHazard ofs) := by
  simp only [State.noteHazard, h, if_true]

/-- What a hazard note leaves besides HAZARD, the spoiled window and the record. -/
theorem noteHazard_frame (s : State) (t : Target) (ofs : BitVec 12) : s.noteHazard t ofs =
    { s with status := { s.status with hazard := (s.noteHazard t ofs).status.hazard },
             dirty := (s.noteHazard t ofs).dirty, faults := (s.noteHazard t ofs).faults } := by
  unfold State.noteHazard State.recordFault
  split
  · split <;> rfl
  · rfl

@[simp] theorem noteHazard_mem (s : State) (t : Target) (ofs : BitVec 12) : (s.noteHazard t ofs).mem = s.mem := by
  rw [noteHazard_frame]
@[simp] theorem noteHazard_host (s : State) (t : Target) (ofs : BitVec 12) : (s.noteHazard t ofs).host = s.host := by
  rw [noteHazard_frame]
@[simp] theorem noteHazard_busy (s : State) (t : Target) (ofs : BitVec 12) :
    (s.noteHazard t ofs).status.busy = s.status.busy := by
  rw [noteHazard_frame]
@[simp] theorem noteHazard_latch (s : State) (t : Target) (ofs : BitVec 12) : (s.noteHazard t ofs).latch = s.latch := by
  rw [noteHazard_frame]
@[simp] theorem noteHazard_delay (s : State) (t : Target) (ofs : BitVec 12) : (s.noteHazard t ofs).delay = s.delay := by
  rw [noteHazard_frame]
@[simp] theorem noteHazard_overrun (s : State) (t : Target) (ofs : BitVec 12) :
    (s.noteHazard t ofs).status.overrun = s.status.overrun := by
  rw [noteHazard_frame]
@[simp] theorem noteHazard_srcFlags (s : State) (t : Target) (ofs : BitVec 12) :
    (s.noteHazard t ofs).srcFlags = s.srcFlags := by
  rw [noteHazard_frame]

/-- HAZARD is sticky (R24). -/
theorem noteHazard_hazard {s : State} (h : s.status.hazard = true) (t : Target) (ofs : BitVec 12) :
    (s.noteHazard t ofs).status.hazard = true := by
  unfold State.noteHazard; split <;> simp [h]

/-- A recorded fault stays recorded. -/
theorem noteHazard_faults {s : State} {f : Fault} (h : f ∈ s.faults) (t : Target) (ofs : BitVec 12) :
    f ∈ (s.noteHazard t ofs).faults := by
  unfold State.noteHazard; split <;> simp [h]

/-- What the write of a register or of bytes leaves alone. -/
theorem writeTarget_host (s : State) (t : Target) (ofs : Nat) (v : Word) : (s.writeTarget t ofs v).host = s.host := by
  rcases t with r | ⟨m, n⟩
  · cases r <;> simp [State.writeTarget, State.writeReg]
  · rfl

theorem writeTarget_faults (s : State) (t : Target) (ofs : Nat) (v : Word) :
    (s.writeTarget t ofs v).faults = s.faults := by
  rcases t with r | ⟨m, n⟩
  · cases r <;> simp [State.writeTarget, State.writeReg]
  · rfl

/-- A write only ever adds OVERRUN or starts a command; HAZARD and OVERRUN stay (R171). -/
theorem writeTarget_sticky (s : State) (t : Target) (ofs : Nat) (v : Word) :
    (s.status.overrun = true → (s.writeTarget t ofs v).status.overrun = true) ∧
    (s.writeTarget t ofs v).status.hazard = s.status.hazard := by
  rcases t with r | ⟨m, n⟩
  · cases r <;> simp only [State.writeTarget, State.writeReg, State.setImgW_status, State.setImgH_status,
      State.setSrcFlags_status, State.setFrmLen_status]
    case cmd => rw [issue_eq]; split <;> simp
    all_goals simp
  · simp [State.writeTarget, State.memWrite]

/-- While a command is in flight no write changes BUSY, LATCH or when the command completes (R34, R201). -/
theorem writeTarget_inFlight {s : State} (h : s.status.busy = true) (t : Target) (ofs : Nat) (v : Word) :
    (s.writeTarget t ofs v).status.busy = true ∧ (s.writeTarget t ofs v).latch = s.latch ∧
      (s.writeTarget t ofs v).delay = s.delay := by
  rcases t with r | ⟨m, n⟩
  · cases r <;> simp only [State.writeTarget, State.writeReg]
    case cmd => rw [issue_busy h]; exact ⟨h, rfl, rfl⟩
    all_goals simp [h]
  · exact ⟨h, rfl, rfl⟩

/-! One access. -/

/-- An access never touches the host agent. -/
theorem busAccess_host (s : State) (r : BusReq) : (s.busAccess r).host = s.host := by
  rcases busAccess_cases s r with ⟨-, h⟩ | ⟨t, -, -, h⟩ | ⟨t, -, -, h⟩ <;> rw [h]
  · simp [State.refuseAccess]
  · simp [State.grantWrite, State.hostWrite, writeTarget_host]
  · rfl

/-- An access keeps every recorded fault. -/
theorem busAccess_faults {s : State} {f : Fault} (hf : f ∈ s.faults) (r : BusReq) : f ∈ (s.busAccess r).faults := by
  rcases busAccess_cases s r with ⟨-, h⟩ | ⟨t, -, -, h⟩ | ⟨t, -, -, h⟩ <;> rw [h]
  · simp [State.refuseAccess, hf]
  · simp [State.grantWrite, State.hostWrite, writeTarget_faults, noteHazard_faults hf]
  · exact hf

/-- bus_err is raised exactly by a refused access, which is then on record (R66). -/
theorem busAccess_err {s : State} {r : BusReq} (h : (s.busAccess r).bus.err = true) :
    (∃ e, checkAccess r.addr r.size = .error e) ∧ Fault.busError r.addr r.size ∈ (s.busAccess r).faults := by
  rcases busAccess_cases s r with ⟨he, hb⟩ | ⟨t, -, -, hb⟩ | ⟨t, -, -, hb⟩ <;> rw [hb] at h ⊢
  · exact ⟨he, by simp [State.refuseAccess]⟩
  · simp [State.grantWrite] at h
  · simp [State.grantRead] at h

/-- An access leaves OVERRUN and HAZARD set (R171). -/
theorem busAccess_sticky (s : State) (r : BusReq) :
    (s.status.overrun = true → (s.busAccess r).status.overrun = true) ∧
    (s.status.hazard = true → (s.busAccess r).status.hazard = true) := by
  rcases busAccess_cases s r with ⟨-, h⟩ | ⟨t, -, -, h⟩ | ⟨t, -, -, h⟩ <;> rw [h]
  · simp [State.refuseAccess]
  · simp only [State.grantWrite, State.hostWrite, State.setBus_status]
    exact ⟨fun ho => (writeTarget_sticky _ t _ _).1 (by simpa using ho),
      fun hh => (writeTarget_sticky _ t _ _).2.trans (noteHazard_hazard hh t _)⟩
  · simp [State.grantRead]

/-- While a command is in flight no access changes BUSY, LATCH or when the command completes (R201). -/
theorem busAccess_inFlight {s : State} (hb : s.status.busy = true) (r : BusReq) :
    (s.busAccess r).status.busy = true ∧ (s.busAccess r).latch = s.latch ∧ (s.busAccess r).delay = s.delay := by
  rcases busAccess_cases s r with ⟨-, h⟩ | ⟨t, -, -, h⟩ | ⟨t, -, -, h⟩ <;> rw [h]
  · simp [State.refuseAccess, hb]
  · simp only [State.grantWrite, State.hostWrite, State.setBus_status, State.setBus_latch, State.setBus_delay]
    simpa using writeTarget_inFlight (s := s.noteHazard t r.addr) (by simpa using hb) t r.addr.toNat (busValue r)
  · exact ⟨hb, rfl, rfl⟩

/-- An idle block becomes busy only by a write of CMD (R182). -/
theorem busAccess_wakes {s : State} {r : BusReq} (hb : s.status.busy = false) (h : (s.busAccess r).status.busy = true) :
    r.we = true ∧ checkAccess r.addr r.size = .ok (.reg .cmd) := by
  rcases busAccess_cases s r with ⟨-, ha⟩ | ⟨t, hc, hw, ha⟩ | ⟨t, -, -, ha⟩ <;> rw [ha] at h
  · simp [State.refuseAccess, hb] at h
  · refine ⟨hw, ?_⟩
    rw [hc]
    have hn : s.noteHazard t r.addr = s := noteHazard_of_not (by simp [hb]) _
    simp only [State.grantWrite, State.hostWrite, State.setBus_status, hn] at h
    rcases t with q | ⟨m, n⟩
    · cases q <;> simp_all [State.writeTarget, State.writeReg]
    · simp [State.writeTarget, State.memWrite, hb] at h
  · simp [State.grantRead, hb] at h

/-- A read, granted or refused, changes the ports, the free-value index and the record of faults, and no state of the block
(R66, R68). -/
theorem busAccess_read_frame (s : State) {r : BusReq} (hw : r.we = false) : s.busAccess r =
    { s with bus := (s.busAccess r).bus, draws := (s.busAccess r).draws, faults := (s.busAccess r).faults } := by
  rcases busAccess_cases s r with ⟨-, h⟩ | ⟨t, -, hw', h⟩ | ⟨t, -, -, h⟩
  · rw [h]; unfold State.refuseAccess; rw [State.recordFault_frame]; rfl
  · rw [hw] at hw'; cases hw'
  · rw [h]; rfl

/-- Reads one after another, likewise. -/
theorem busAccesses_reads_frame (s : State) {rs : List BusReq} (hw : ∀ r ∈ rs, r.we = false) : s.busAccesses rs =
    { s with bus := (s.busAccesses rs).bus, draws := (s.busAccesses rs).draws, faults := (s.busAccesses rs).faults } := by
  induction rs generalizing s with
  | nil => rfl
  | cons r rest ih =>
    have h1 := busAccess_read_frame s (hw r (by simp))
    have h2 := ih (s.busAccess r) fun q hq => hw q (by simp [hq])
    have key : ∀ (u : State) (b : BusResp) (d : Nat) (f : List Fault),
        u = { s with bus := u.bus, draws := u.draws, faults := u.faults } →
        { u with bus := b, draws := d, faults := f } = { s with bus := b, draws := d, faults := f } := by
      intro u b d f hu
      rw [hu]
    exact h2.trans (key _ _ _ _ h1)

/-- A CMD write to an idle block, with any reads before and after it: the word is latched, the window clean, and the memories and
the other registers are as they were (R34, R68). -/
theorem busAccesses_issue {s : State} (hb : s.status.busy = false) (w : Word) {rs qs : List BusReq}
    (hr : ∀ r ∈ rs, r.we = false) (hq : ∀ r ∈ qs, r.we = false) :
    let u := ((s.busAccesses rs).busAccess (writeReq .word 0x000 w)).busAccesses qs
    u.latch = w ∧ u.dirty = false ∧ u.status.busy = true ∧ u.mem = s.mem ∧ u.imgW = s.imgW ∧ u.imgH = s.imgH ∧
      u.srcFlags = s.srcFlags ∧ u.frmLen = s.frmLen := by
  have h1 := busAccesses_reads_frame s hr
  have hb1 : (s.busAccesses rs).status.busy = false := by rw [h1]; exact hb
  have h2 : (s.busAccesses rs).busAccess (writeReq .word 0x000 w) =
      ((s.busAccesses rs).issue w).setBus { rdata := none, err := false } := by
    rw [busAccess_writeReq (t := .reg .cmd) _ w rfl rfl, State.hostWrite, noteHazard_of_not (by simp [hb1])]
    simp only [State.writeTarget, State.writeReg, Width.bytes, lowBytes_four]
  have h3 := busAccesses_reads_frame ((s.busAccesses rs).busAccess (writeReq .word 0x000 w)) hq
  intro u
  have hu : u = _ := h3
  rw [hu, h2, issue_eq]
  simp only [hb1, Bool.false_eq_true, if_false, State.setBus]
  rw [h1]
  exact ⟨trivial, trivial, trivial, rfl, rfl, rfl, rfl, rfl⟩

/-! The free-value index only ever moves up (R14, R38). -/

theorem issue_draws (s : State) (w : Word) : s.draws ≤ (s.issue w).draws := by
  rw [issue_eq]; split <;> simp

theorem writeTarget_draws (s : State) (t : Target) (ofs : Nat) (v : Word) : s.draws ≤ (s.writeTarget t ofs v).draws := by
  rcases t with r | ⟨m, n⟩
  · cases r <;> simp [State.writeTarget, State.writeReg, issue_draws]
  · exact Nat.le_refl _

theorem busAccess_draws (s : State) (r : BusReq) : s.draws ≤ (s.busAccess r).draws := by
  rcases busAccess_cases s r with ⟨-, h⟩ | ⟨t, -, -, h⟩ | ⟨t, -, -, h⟩ <;> rw [h]
  · simp [State.refuseAccess]
  · have := writeTarget_draws (s.noteHazard t r.addr) t r.addr.toNat (busValue r)
    rw [show (s.noteHazard t r.addr).draws = s.draws by rw [noteHazard_frame]] at this
    simpa [State.grantWrite, State.hostWrite] using this
  · simp [State.grantRead]

end Sys2Proof.Machine
end

