-- ==== Sys2Proof/Laws/Commands.lean ====
section
/-! SUPPORT. What the datapath functions and the three commands do, once: the laws of the bit-packer and the serializer, the
next state of each command by cases, and what no command changes (spec 40_extract.md, 41_codec.md, 60_exceptions.md). -/

namespace Sys2Proof.Machine

/-! The bit-packer and the serializer. -/

/-- The pixel index written out (R112, R113). -/
theorem pixIndex_eq (i r c : Nat) : pixIndex i r c = ((5 * (i / 4) + r) * 16 + (4 * (i % 4) + c)) * 4 := rfl

/-- The ink threshold (R115). -/
theorem ink_eq (v : Byte) : ink v = decide (v.toNat < 128) := rfl

/-- Column `c` of a cell row stands at bit `3 - c` (R116). -/
theorem rowByte_column (pix : Nat → Byte) (i r : Nat) {c : Nat} (hc : c < 4) :
    (rowByte pix i r).getLsbD (3 - c) = ink (pix (pixIndex i r c)) := by
  have key : ∀ b0 b1 b2 b3 : Bool,
      let w : Byte := 0#4 ++ BitVec.ofBool b0 ++ BitVec.ofBool b1 ++ BitVec.ofBool b2 ++ BitVec.ofBool b3
      w.getLsbD 3 = b0 ∧ w.getLsbD 2 = b1 ∧ w.getLsbD 1 = b2 ∧ w.getLsbD 0 = b3 := by decide
  have h := key (ink (pix (pixIndex i r 0))) (ink (pix (pixIndex i r 1))) (ink (pix (pixIndex i r 2)))
    (ink (pix (pixIndex i r 3)))
  obtain rfl | rfl | rfl | rfl : c = 0 ∨ c = 1 ∨ c = 2 ∨ c = 3 := by omega
  · exact h.1
  · exact h.2.1
  · exact h.2.2.1
  · exact h.2.2.2

/-- Bits 7:4 of a row byte are zero (R116). -/
theorem rowByte_high (pix : Nat → Byte) (i r : Nat) {j : Nat} (hj : 4 ≤ j) : (rowByte pix i r).getLsbD j = false := by
  have key : ∀ b0 b1 b2 b3 : Bool,
      let w : Byte := 0#4 ++ BitVec.ofBool b0 ++ BitVec.ofBool b1 ++ BitVec.ofBool b2 ++ BitVec.ofBool b3
      w.getLsbD 4 = false ∧ w.getLsbD 5 = false ∧ w.getLsbD 6 = false ∧ w.getLsbD 7 = false := by decide
  have h := key (ink (pix (pixIndex i r 0))) (ink (pix (pixIndex i r 1))) (ink (pix (pixIndex i r 2)))
    (ink (pix (pixIndex i r 3)))
  obtain rfl | rfl | rfl | rfl | h8 : j = 4 ∨ j = 5 ∨ j = 6 ∨ j = 7 ∨ 8 ≤ j := by omega
  · exact h.1
  · exact h.2.1
  · exact h.2.2.1
  · exact h.2.2.2
  · exact BitVec.getLsbD_of_ge _ _ h8

/-- A byte whose bits 7:4 are zero is at most 0x0F. -/
theorem le_nibble_of_high (b : Byte) (h : ∀ j, 4 ≤ j → b.getLsbD j = false) : b.toNat ≤ 0x0F := by
  have : b = (b.setWidth 4).setWidth 8 := by
    apply BitVec.eq_of_getLsbD_eq
    intro j hj
    simp only [BitVec.getLsbD_setWidth, hj, decide_true, Bool.true_and]
    by_cases h4 : j < 4
    · simp [h4]
    · rw [h j (by omega)]; simp [h4]
  have hlt := (b.setWidth 4).isLt
  have := congrArg BitVec.toNat this
  simp only [BitVec.toNat_setWidth] at *
  omega

/-- The row byte of a glyph is the glyph's byte of the collection (R117). -/
theorem extractFn_at (pix : Nat → Byte) (i : Nat) {r : Nat} (hr : r < 5) : extractFn pix (5 * i + r) = rowByte pix i r := by
  have h1 : (5 * i + r) / 5 = i := by omega
  have h2 : (5 * i + r) % 5 = r := by omega
  simp [extractFn, Config.glyphBytes, h1, h2]

/-- GLY's own bytes are its collection's, in order (R31, R140). -/
theorem encodeFn_collection (s : State) (k : Nat) : encodeFn s.collection k = s.glyByte k := by
  have : 5 * (k / 5) + k % 5 = k := by omega
  simp [encodeFn, State.collection, Config.glyphBytes, this]

/-- DECODE's check is the length, and its collection the frame's bytes in order (R144). -/
theorem decodeFn_eq (f : Nat → Byte) (len : Word) :
    decodeFn f len = if len ≠ 80 then .error .schemaMismatch else .ok (fun i r => f (5 * i + r)) := rfl

/-- A collection read from a frame lies in GLY as the frame's bytes (R144, R31). -/
theorem flatByte_frame (f : Nat → Byte) (k : Nat) : flatByte (fun i r => f (5 * i + r)) k = f k := by
  have : 5 * (k / 5) + k % 5 = k := by omega
  simp [flatByte, Config.glyphBytes, this]

/-- The high-nibble test over the first `n` bytes (R147). -/
theorem anyHighNibble_iff (f : Nat → Byte) (n : Nat) : anyHighNibble f n = true ↔ ∃ k < n, 0x0F < (f k).toNat := by
  induction n with
  | zero => simp [anyHighNibble]
  | succ n ih =>
    simp only [anyHighNibble, Bool.or_eq_true, ih, decide_eq_true_eq, BitVec.lt_def]
    constructor
    · rintro (⟨k, hk, h⟩ | h)
      · exact ⟨k, by omega, h⟩
      · exact ⟨n, by omega, h⟩
    · rintro ⟨k, hk, h⟩
      by_cases e : k = n
      · subst e; exact .inr h
      · exact .inl ⟨k, by omega, h⟩

/-- The high-nibble test sees only the bytes. -/
theorem anyHighNibble_congr {f g : Nat → Byte} {n : Nat} (h : ∀ k < n, f k = g k) :
    anyHighNibble f n = anyHighNibble g n := by
  induction n with
  | zero => rfl
  | succ n ih => simp only [anyHighNibble, ih fun k hk => h k (by omega), h n (by omega)]

/-! The states the commands leave, written out. -/

theorem State.raise_eq (s : State) (e : ErrorKind) :
    s.raise e = { s with status := { s.status with busy := false, done := true, errcode := e.code } } := rfl

theorem State.completeHazard_eq (s : State) (c : BitVec 4) : s.completeHazard c =
    { s with status := { s.status with busy := false, done := true, errcode := c, hinib := Config.freeBit s.draws },
             draws := s.draws + 80 } := by
  simp only [State.complete, State.advance, State.setStatus, Status.completed, State.completeHazard, Status.withHinib]

theorem State.extractGlyphs_eq (s : State) : s.extractGlyphs =
    { s with status := { s.status with busy := false, done := true, errcode := 0 },
             mem := s.mem.fill 0x100 (extractFn s.pixByte) 80, draws := s.draws + 320 } := by
  simp only [State.extractGlyphs, State.setMem, glyBase, Config.frameBytes, State.complete, State.advance,
    State.setStatus, Status.completed]

theorem State.extractHazard_eq (s : State) : s.extractHazard =
    { s with status := { s.status with busy := false, done := true,
                                       errcode := ((Config.freeWord s.draws).setWidth 2).setWidth 4,
                                       hinib := Config.freeBit s.draws },
             mem := s.mem.fill 0x100 (fun k => Config.freeByte (s.draws + k)) 80, draws := s.draws + 80 } := by
  simp only [State.extractHazard, State.setMem, glyBase, Config.frameBytes, State.complete, State.advance,
    State.setStatus, Status.completed, State.completeHazard, Status.withHinib]

theorem State.encodeFrame_eq (s : State) : s.encodeFrame =
    { s with status := { s.status with busy := false, done := true, errcode := 0 },
             mem := s.mem.fill 0x200 (encodeFn s.collection) 80, frmLen := 80, draws := s.draws + 80 } := by
  simp only [State.encodeFrame, State.setMem, State.setFrmLen, frmBase, Config.frameBytes, State.complete,
    State.advance, State.setStatus, Status.completed]

theorem State.encodeHazard_eq (s : State) : s.encodeHazard =
    { s with status := { s.status with busy := false, done := true, errcode := 0, hinib := Config.freeBit s.draws },
             mem := s.mem.fill 0x200 (fun k => Config.freeByte (s.draws + k)) 80, frmLen := Config.freeWord s.draws,
             draws := s.draws + 80 } := by
  simp only [State.encodeHazard, State.setMem, State.setFrmLen, frmBase, Config.frameBytes, State.complete,
    State.advance, State.setStatus, Status.completed, State.completeHazard, Status.withHinib]

theorem State.decodeGlyphs_eq (s : State) (g : Nat → Nat → Byte) : s.decodeGlyphs g =
    { s with status := { s.status with busy := false, done := true, errcode := 0, hinib := anyHighNibble (flatByte g) 80 },
             mem := s.mem.fill 0x100 (flatByte g) 80, draws := s.draws + 80 } := by
  simp only [State.decodeGlyphs, State.setMem, glyBase, Config.frameBytes, State.advance, State.setStatus,
    Status.completed, Status.withHinib]

theorem State.decodeHazard_eq (s : State) : s.decodeHazard =
    { s with status := { s.status with busy := false, done := true,
                                       errcode := if Config.freeBit (s.draws + 1) then 4 else 0,
                                       hinib := Config.freeBit s.draws },
             mem := s.mem.fill 0x100 (fun k => Config.freeByte (s.draws + k)) 80, draws := s.draws + 80 } := by
  simp only [State.decodeHazard, State.setMem, glyBase, Config.frameBytes, ErrorKind.code, State.complete,
    State.advance, State.setStatus, Status.completed, State.completeHazard, Status.withHinib]

/-! STATUS and the bytes of those states. Later proofs cite these and never open a fill of 80 bytes. -/

@[simp] theorem State.extractGlyphs_status (s : State) : s.extractGlyphs.status = s.status.completed 0 := by
  simp only [State.extractGlyphs_eq, Status.completed]

@[simp] theorem State.extractHazard_status (s : State) : s.extractHazard.status =
    (s.status.completed (((Config.freeWord s.draws).setWidth 2).setWidth 4)).withHinib (Config.freeBit s.draws) := by
  simp only [State.extractHazard_eq, Status.completed, Status.withHinib]

@[simp] theorem State.encodeFrame_status (s : State) : s.encodeFrame.status = s.status.completed 0 := by
  simp only [State.encodeFrame_eq, Status.completed]

@[simp] theorem State.encodeHazard_status (s : State) :
    s.encodeHazard.status = (s.status.completed 0).withHinib (Config.freeBit s.draws) := by
  simp only [State.encodeHazard_eq, Status.completed, Status.withHinib]

@[simp] theorem State.decodeGlyphs_status (s : State) (g : Nat → Nat → Byte) :
    (s.decodeGlyphs g).status = (s.status.completed 0).withHinib (anyHighNibble (flatByte g) 80) := by
  simp only [State.decodeGlyphs_eq, Status.completed, Status.withHinib]

@[simp] theorem State.decodeHazard_status (s : State) : s.decodeHazard.status =
    (s.status.completed (if Config.freeBit (s.draws + 1) then 4 else 0)).withHinib (Config.freeBit s.draws) := by
  simp only [State.decodeHazard_eq, Status.completed, Status.withHinib]

/-- GLY after a successful EXTRACT (R117), and every other byte. -/
theorem State.extractGlyphs_read (s : State) {k : Nat} (h : k < 80) :
    s.extractGlyphs.mem.read (0x100 + k) = some (extractFn s.pixByte k) := by
  simp only [State.extractGlyphs_eq]; exact Memory.read_fill_at _ _ _ h

theorem State.extractGlyphs_read_off (s : State) {a : Nat} (h : a < 0x100 ∨ 0x150 ≤ a) :
    s.extractGlyphs.mem.read a = s.mem.read a := by
  simp only [State.extractGlyphs_eq]; exact Memory.read_fill_off _ _ _ h

/-- FRM after an ENCODE (R141), and every other byte. -/
theorem State.encodeFrame_read (s : State) {k : Nat} (h : k < 80) :
    s.encodeFrame.mem.read (0x200 + k) = some (s.glyByte k) := by
  simp only [State.encodeFrame_eq]; rw [Memory.read_fill_at _ _ _ h, encodeFn_collection]

theorem State.encodeFrame_read_off (s : State) {a : Nat} (h : a < 0x200 ∨ 0x250 ≤ a) :
    s.encodeFrame.mem.read a = s.mem.read a := by
  simp only [State.encodeFrame_eq]; exact Memory.read_fill_off _ _ _ h

/-- GLY after a successful DECODE (R145), and every other byte. -/
theorem State.decodeGlyphs_read (s : State) (g : Nat → Nat → Byte) {k : Nat} (h : k < 80) :
    (s.decodeGlyphs g).mem.read (0x100 + k) = some (flatByte g k) := by
  simp only [State.decodeGlyphs_eq]; exact Memory.read_fill_at _ _ _ h

theorem State.decodeGlyphs_read_off (s : State) (g : Nat → Nat → Byte) {a : Nat} (h : a < 0x100 ∨ 0x150 ≤ a) :
    (s.decodeGlyphs g).mem.read a = s.mem.read a := by
  simp only [State.decodeGlyphs_eq]; exact Memory.read_fill_off _ _ _ h

/-- The bytes a spoiled command leaves (R203), and every other byte. -/
theorem State.extractHazard_read (s : State) {k : Nat} (h : k < 80) :
    s.extractHazard.mem.read (0x100 + k) = some (Config.freeByte (s.draws + k)) := by
  simp only [State.extractHazard_eq]; exact Memory.read_fill_at _ _ _ h

theorem State.extractHazard_read_off (s : State) {a : Nat} (h : a < 0x100 ∨ 0x150 ≤ a) :
    s.extractHazard.mem.read a = s.mem.read a := by
  simp only [State.extractHazard_eq]; exact Memory.read_fill_off _ _ _ h

theorem State.encodeHazard_read (s : State) {k : Nat} (h : k < 80) :
    s.encodeHazard.mem.read (0x200 + k) = some (Config.freeByte (s.draws + k)) := by
  simp only [State.encodeHazard_eq]; exact Memory.read_fill_at _ _ _ h

theorem State.encodeHazard_read_off (s : State) {a : Nat} (h : a < 0x200 ∨ 0x250 ≤ a) :
    s.encodeHazard.mem.read a = s.mem.read a := by
  simp only [State.encodeHazard_eq]; exact Memory.read_fill_off _ _ _ h

theorem State.decodeHazard_read (s : State) {k : Nat} (h : k < 80) :
    s.decodeHazard.mem.read (0x100 + k) = some (Config.freeByte (s.draws + k)) := by
  simp only [State.decodeHazard_eq]; exact Memory.read_fill_at _ _ _ h

theorem State.decodeHazard_read_off (s : State) {a : Nat} (h : a < 0x100 ∨ 0x150 ≤ a) :
    s.decodeHazard.mem.read a = s.mem.read a := by
  simp only [State.decodeHazard_eq]; exact Memory.read_fill_off _ _ _ h

/-- A reserved word's completion, in a clean busy window and in a spoiled one (R96, R203). -/
theorem completeReserved_clean {s : State} (h : s.dirty = false) : s.completeReserved =
    { s with status := { s.status with busy := false, done := true, errcode := 6 } } := by
  simp only [State.completeReserved, h, Bool.false_eq_true, if_false, State.raise_eq, ErrorKind.code]

theorem completeReserved_spoiled {s : State} (h : s.dirty = true) : s.completeReserved =
    { s with status := { s.status with busy := false, done := true, errcode := 6, hinib := Config.freeBit s.draws },
             draws := s.draws + 80 } := by
  simp only [State.completeReserved, h, if_true, State.completeHazard_eq, ErrorKind.code]

/-! The next state of each command. -/

/-- EXTRACT by cases (R118, R203). -/
theorem exec_extract (s : State) : exec .extract s =
    .next (if s.dirty then s.extractHazard else match s.extractCheck with | some e => s.raise e | none => s.extractGlyphs) := by
  simp only [exec, execExtract]
  split
  · rfl
  · cases s.extractCheck <;> rfl

/-- ENCODE by cases (R141, R203). -/
theorem exec_encode (s : State) : exec .encode s = .next (if s.dirty then s.encodeHazard else s.encodeFrame) := by
  simp only [exec, execEncode]
  split <;> rfl

/-- DECODE by cases (R145, R203). -/
theorem exec_decode (s : State) : exec .decode s =
    .next (if s.dirty then s.decodeHazard else
      if s.frmLen ≠ 80 then s.raise .schemaMismatch else s.decodeGlyphs (fun i r => s.frmByte (5 * i + r))) := by
  simp only [exec, execDecode, decodeFn_eq]
  split
  · rfl
  · by_cases h : s.frmLen = 80
    · simp only [h, ne_eq, not_true_eq_false, if_false]
    · simp only [h, ne_eq, not_false_eq_true, if_true]

/-- What a command leaves, case by case: the one inversion lemma of `exec`. -/
theorem exec_cases {i : Instr} {s t : State} (h : exec i s = .next t) :
    (i = .extract ∧ s.dirty = true ∧ t = s.extractHazard) ∨
    (i = .extract ∧ s.dirty = false ∧ (∃ e, s.extractCheck = some e ∧ t = s.raise e)) ∨
    (i = .extract ∧ s.dirty = false ∧ s.extractCheck = none ∧ t = s.extractGlyphs) ∨
    (i = .encode ∧ s.dirty = true ∧ t = s.encodeHazard) ∨
    (i = .encode ∧ s.dirty = false ∧ t = s.encodeFrame) ∨
    (i = .decode ∧ s.dirty = true ∧ t = s.decodeHazard) ∨
    (i = .decode ∧ s.dirty = false ∧ s.frmLen ≠ 80 ∧ t = s.raise .schemaMismatch) ∨
    (i = .decode ∧ s.dirty = false ∧ s.frmLen = 80 ∧ t = s.decodeGlyphs (fun i r => s.frmByte (5 * i + r))) := by
  cases i
  · rw [exec_extract] at h
    cases hd : s.dirty
    · cases he : s.extractCheck <;> simp_all
    · simp_all
  · rw [exec_encode] at h
    cases hd : s.dirty <;> simp_all
  · rw [exec_decode] at h
    cases hd : s.dirty
    · by_cases hl : s.frmLen = 80 <;> simp_all
    · simp_all

/-- The error EXTRACT reports is one of its three (R161). -/
theorem extractCheck_some {s : State} {e : ErrorKind} (h : s.extractCheck = some e) :
    e = .imageDecodeFailure ∨ e = .invalidSize ∨ e = .conversionFailure := by
  unfold State.extractCheck at h
  split_ifs at h <;> simp_all

/-- EXTRACT reports no error exactly when all its checks pass (R118). -/
theorem extractCheck_none {s : State} : s.extractCheck = none ↔
    s.containerOk = true ∧ s.imgW = 16 ∧ s.imgH = 20 ∧ s.rgba8Ok = true := by
  unfold State.extractCheck
  cases s.containerOk <;> cases s.rgba8Ok <;> by_cases hw : s.imgW = 16 <;> by_cases hh : s.imgH = 20 <;> simp [hw, hh] <;> simp_all

/-- The checks in terms of the register bits, in their order (R118, R163). -/
theorem extractCheck_container {s : State} (h : s.srcFlags.getLsbD 0 = false) :
    s.extractCheck = some .imageDecodeFailure := by
  have h' : s.containerOk = false := h
  simp [State.extractCheck, h']

theorem extractCheck_size {s : State} (h0 : s.srcFlags.getLsbD 0 = true) (h : s.imgW ≠ 16 ∨ s.imgH ≠ 20) :
    s.extractCheck = some .invalidSize := by
  have h0' : s.containerOk = true := h0
  simp only [State.extractCheck, h0', Bool.true_eq_false, if_false, if_pos h]

theorem extractCheck_convert {s : State} (h0 : s.srcFlags.getLsbD 0 = true) (hw : s.imgW = 16) (hh : s.imgH = 20)
    (h1 : s.srcFlags.getLsbD 1 = false) : s.extractCheck = some .conversionFailure := by
  have h0' : s.containerOk = true := h0
  have h1' : s.rgba8Ok = false := h1
  simp [State.extractCheck, h0', h1', hw, hh]

theorem extractCheck_pass {s : State} (h0 : s.srcFlags.getLsbD 0 = true) (hw : s.imgW = 16) (hh : s.imgH = 20)
    (h1 : s.srcFlags.getLsbD 1 = true) : s.extractCheck = none := extractCheck_none.mpr ⟨h0, hw, hh, h1⟩

/-- The checks see only the two verdict bits and the size (R165). -/
theorem extractCheck_congr {s u : State} (h0 : s.srcFlags.getLsbD 0 = u.srcFlags.getLsbD 0)
    (h1 : s.srcFlags.getLsbD 1 = u.srcFlags.getLsbD 1) (hw : s.imgW = u.imgW) (hh : s.imgH = u.imgH) :
    s.extractCheck = u.extractCheck := by
  have h0' : s.containerOk = u.containerOk := h0
  have h1' : s.rgba8Ok = u.rgba8Ok := h1
  simp only [State.extractCheck, h0', h1', hw, hh]

/-- No command stops the machine. -/
theorem exec_next (i : Instr) (s : State) : ∃ t, exec i s = .next t := by
  cases i
  · exact ⟨_, exec_extract s⟩
  · exact ⟨_, exec_encode s⟩
  · exact ⟨_, exec_decode s⟩

/-- The completion step never stops the machine. -/
theorem engineStep_next (s : State) : ∃ t, engineStep s = .next t := by
  unfold engineStep
  split
  · exact exec_next _ s
  · exact ⟨_, rfl⟩

/-- What a command may write besides the memories (R33): STATUS and FRM_LEN; and it uses up free values. -/
theorem exec_frame {i : Instr} {s t : State} (h : exec i s = .next t) :
    t = { s with status := t.status, mem := t.mem, frmLen := t.frmLen, draws := t.draws } := by
  rcases exec_cases h with ⟨-, -, rfl⟩ | ⟨-, -, e, -, rfl⟩ | ⟨-, -, -, rfl⟩ | ⟨-, -, rfl⟩ | ⟨-, -, rfl⟩ | ⟨-, -, rfl⟩ |
    ⟨-, -, -, rfl⟩ | ⟨-, -, -, rfl⟩
  · simp only [State.extractHazard_eq]
  · simp only [State.raise_eq]
  · simp only [State.extractGlyphs_eq]
  · simp only [State.encodeHazard_eq]
  · simp only [State.encodeFrame_eq]
  · simp only [State.decodeHazard_eq]
  · simp only [State.raise_eq]
  · simp only [State.decodeGlyphs_eq]

/-- A reserved word changes STATUS and uses up free values, no more (R96). -/
theorem completeReserved_frame (s : State) :
    s.completeReserved = { s with status := s.completeReserved.status, draws := s.completeReserved.draws } := by
  unfold State.completeReserved
  split
  · rw [State.completeHazard_eq]
  · simp only [State.raise_eq]

/-- What the completion step leaves besides STATUS, the memories, FRM_LEN and the free-value index, reserved words included. -/
theorem engineStep_frame {s t : State} (h : engineStep s = .next t) :
    t = { s with status := t.status, mem := t.mem, frmLen := t.frmLen, draws := t.draws } := by
  unfold engineStep at h
  split at h
  · exact exec_frame h
  · cases h
    rw [completeReserved_frame]

/-- Every completion writes BUSY = 0 and DONE = 1 and leaves the sticky bits (R35, R171). -/
theorem exec_status {i : Instr} {s t : State} (h : exec i s = .next t) :
    t.status.busy = false ∧ t.status.done = true ∧ t.status.overrun = s.status.overrun ∧
      t.status.hazard = s.status.hazard := by
  rcases exec_cases h with ⟨-, -, rfl⟩ | ⟨-, -, e, -, rfl⟩ | ⟨-, -, -, rfl⟩ | ⟨-, -, rfl⟩ | ⟨-, -, rfl⟩ | ⟨-, -, rfl⟩ |
    ⟨-, -, -, rfl⟩ | ⟨-, -, -, rfl⟩ <;> simp

/-- The same of the completion step. -/
theorem engineStep_status {s t : State} (h : engineStep s = .next t) :
    t.status.busy = false ∧ t.status.done = true ∧ t.status.overrun = s.status.overrun ∧
      t.status.hazard = s.status.hazard := by
  unfold engineStep at h
  split at h
  · exact exec_status h
  · cases h
    unfold State.completeReserved
    split <;> exact ⟨rfl, rfl, rfl, rfl⟩

/-- Where each command stores: EXTRACT and DECODE in GLY, ENCODE in FRM (R33). -/
def storesAt : Instr → Nat → Prop
  | .extract, a => 0x100 ≤ a ∧ a < 0x150
  | .encode, a => 0x200 ≤ a ∧ a < 0x250
  | .decode, a => 0x100 ≤ a ∧ a < 0x150

/-- A command leaves every byte it does not store to. -/
theorem exec_mem_off {i : Instr} {s t : State} (h : exec i s = .next t) {a : Nat} (ha : ¬ storesAt i a) :
    t.mem.read a = s.mem.read a := by
  rcases exec_cases h with ⟨rfl, -, rfl⟩ | ⟨rfl, -, e, -, rfl⟩ | ⟨rfl, -, -, rfl⟩ | ⟨rfl, -, rfl⟩ | ⟨rfl, -, rfl⟩ |
    ⟨rfl, -, rfl⟩ | ⟨rfl, -, -, rfl⟩ | ⟨rfl, -, -, rfl⟩
  · exact State.extractHazard_read_off _ (by simp only [storesAt] at ha; omega)
  · simp only [State.raise_eq]
  · exact State.extractGlyphs_read_off _ (by simp only [storesAt] at ha; omega)
  · exact State.encodeHazard_read_off _ (by simp only [storesAt] at ha; omega)
  · exact State.encodeFrame_read_off _ (by simp only [storesAt] at ha; omega)
  · exact State.decodeHazard_read_off _ (by simp only [storesAt] at ha; omega)
  · simp only [State.raise_eq]
  · exact State.decodeGlyphs_read_off _ _ (by simp only [storesAt] at ha; omega)

/-- A command keeps the memories in canonical form. -/
theorem exec_wf {i : Instr} {s t : State} (h : exec i s = .next t) (hm : s.mem.wf) : t.mem.wf := by
  have hg : ∀ j < 80, isStorage (0x100 + j) = true := fun j hj => by rw [isStorage_iff]; omega
  have hf : ∀ j < 80, isStorage (0x200 + j) = true := fun j hj => by rw [isStorage_iff]; omega
  rcases exec_cases h with ⟨rfl, -, rfl⟩ | ⟨rfl, -, e, -, rfl⟩ | ⟨rfl, -, -, rfl⟩ | ⟨rfl, -, rfl⟩ | ⟨rfl, -, rfl⟩ |
    ⟨rfl, -, rfl⟩ | ⟨rfl, -, -, rfl⟩ | ⟨rfl, -, -, rfl⟩
  · simp only [State.extractHazard_eq]; exact Memory.wf_fill hm _ hg
  · exact hm
  · simp only [State.extractGlyphs_eq]; exact Memory.wf_fill hm _ hg
  · simp only [State.encodeHazard_eq]; exact Memory.wf_fill hm _ hf
  · simp only [State.encodeFrame_eq]; exact Memory.wf_fill hm _ hf
  · simp only [State.decodeHazard_eq]; exact Memory.wf_fill hm _ hg
  · exact hm
  · simp only [State.decodeGlyphs_eq]; exact Memory.wf_fill hm _ hg

/-- A completion never moves the free-value index back. -/
theorem engineStep_draws {s t : State} (h : engineStep s = .next t) : s.draws ≤ t.draws := by
  unfold engineStep at h
  split at h
  · rcases exec_cases h with ⟨-, -, rfl⟩ | ⟨-, -, e, -, rfl⟩ | ⟨-, -, -, rfl⟩ | ⟨-, -, rfl⟩ | ⟨-, -, rfl⟩ | ⟨-, -, rfl⟩ |
      ⟨-, -, -, rfl⟩ | ⟨-, -, -, rfl⟩
    · rw [State.extractHazard_eq]; simp
    · simp
    · rw [State.extractGlyphs_eq]; simp
    · rw [State.encodeHazard_eq]; simp
    · rw [State.encodeFrame_eq]; simp
    · rw [State.decodeHazard_eq]; simp
    · simp
    · rw [State.decodeGlyphs_eq]; simp
  · cases h
    cases hd : s.dirty
    · rw [completeReserved_clean hd]
    · rw [completeReserved_spoiled hd]; simp

end Sys2Proof.Machine
end

