-- ==== Sys2Proof/Laws/PerInstr.lean ====
section
/-! SUPPORT. What holds of every command as a term of the syntax: its word has a zero RSV field and an OP of its own. -/

namespace Sys2Proof.Laws.CommandWord

/-- The word of a command has RSV = 0 and the OP that R91 gives it, and the command is well formed (R90-R92). -/
def Statement (i : Instr) : Prop :=
  i.wf = true ∧ rsvField (encode i) = 0 ∧
    opField (encode i) = match i with | .extract => 0x01 | .encode => 0x02 | .decode => 0x03

theorem extract : Statement .extract := ⟨rfl, by decide, by decide⟩
theorem encode : Statement .encode := ⟨rfl, by decide, by decide⟩
theorem decode : Statement .decode := ⟨rfl, by decide, by decide⟩

end Sys2Proof.Laws.CommandWord
end

