-- ==== Sys2Proof/Laws/Step.lean ====
section
/-! SUPPORT. What a step can do, once, and the parts of the invariant that each operation keeps. -/

namespace Sys2Proof.Machine

/-! The clock of LATENCY. -/

/-- A tick changes only the count of steps left (R198). -/
theorem tick_frame (s : State) : s.tick = { s with delay := s.tick.delay } := by
  unfold State.tick; split <;> rfl

@[simp] theorem tick_status (s : State) : s.tick.status = s.status := by rw [tick_frame]
@[simp] theorem tick_host (s : State) : s.tick.host = s.host := by rw [tick_frame]
@[simp] theorem tick_faults (s : State) : s.tick.faults = s.faults := by rw [tick_frame]
@[simp] theorem tick_latch (s : State) : s.tick.latch = s.latch := by rw [tick_frame]
@[simp] theorem tick_mem (s : State) : s.tick.mem = s.mem := by rw [tick_frame]
theorem tick_busy {s : State} (h : s.status.busy = true) : s.tick = { s with delay := s.delay - 1 } := by
  simp [State.tick, h, State.setDelay]
theorem tick_idle {s : State} (h : s.status.busy = false) : s.tick = s := by simp [State.tick, h]

/-! The host's lines. -/

/-- What the host makes of an answer changes only the host. -/
theorem afterAccess_frame (s : State) (r : BusReq) (t : Option Nat) :
    s.afterAccess r t = { s with host := (s.afterAccess r t).host } := by
  unfold State.afterAccess
  split
  · rfl
  · split <;> rfl

@[simp] theorem afterAccess_status (s : State) (r : BusReq) (t : Option Nat) : (s.afterAccess r t).status = s.status := by
  rw [afterAccess_frame]
@[simp] theorem afterAccess_faults (s : State) (r : BusReq) (t : Option Nat) : (s.afterAccess r t).faults = s.faults := by
  rw [afterAccess_frame]
@[simp] theorem afterAccess_latch (s : State) (r : BusReq) (t : Option Nat) : (s.afterAccess r t).latch = s.latch := by
  rw [afterAccess_frame]
@[simp] theorem afterAccess_delay (s : State) (r : BusReq) (t : Option Nat) : (s.afterAccess r t).delay = s.delay := by
  rw [afterAccess_frame]

/-- The host after an access: stopped at the refused one, or past the line with at most one temporary written. -/
theorem afterAccess_host (s : State) (r : BusReq) (t : Option Nat) :
    (s.bus.err = true ∧ (s.afterAccess r t).host = s.host.stop (.busError r.addr r.size)) ∨
    (s.bus.err = false ∧ ((s.afterAccess r t).host = s.host.next ∨
      ∃ k v, (s.afterAccess r t).host = { s.host.next with temps := cellsWrite s.host.temps k v })) := by
  unfold State.afterAccess
  split
  · exact .inl ⟨‹_›, rfl⟩
  · refine .inr ⟨Bool.eq_false_of_not_eq_true ‹_›, ?_⟩
    split
    · exact .inr ⟨_, _, rfl⟩
    · exact .inl rfl
    · exact .inl rfl

/-- A line is an access, a move inside the host, or the platform's reset. -/
theorem runLine_cases (s : State) (line : HostLine) :
    (∃ r t, s.runLine line = s.hostAccess r t) ∨
    (∃ h n, s.runLine line = (s.setHost h).advance n ∧ h.temps = s.host.temps ∧ h.halted = s.host.halted) ∨
    (line = .platformReset ∧ s.runLine line = s.hostReset) := by
  cases line with
  | write n ofs v => exact .inl ⟨_, _, rfl⟩
  | read n ofs t => exact .inl ⟨_, _, rfl⟩
  | ports r => exact .inl ⟨_, _, rfl⟩
  | label l => exact .inr (.inl ⟨s.host.next, 0, rfl, rfl, rfl⟩)
  | bne t mask v l =>
    refine .inr (.inl ⟨_, 1, rfl, ?_, ?_⟩) <;> split <;> rfl
  | check t v => exact .inr (.inl ⟨_, 1, rfl, rfl, rfl⟩)
  | platformReset => exact .inr (.inr ⟨rfl, rfl⟩)

/-- A line that presents an access is that access, with a temporary named by a read line only (R98). -/
theorem runLine_access {line : HostLine} {r : BusReq} (h : line.request = some r) (s : State) :
    ∃ t, s.runLine line = s.hostAccess r t ∧ (∀ k, t = some k → ∃ n ofs, line = .read n ofs k) := by
  cases line with
  | write n ofs v => cases h; exact ⟨_, rfl, by simp⟩
  | read n ofs k => cases h; exact ⟨_, rfl, fun j hj => ⟨n, ofs, by cases hj; rfl⟩⟩
  | ports q => cases h; exact ⟨_, rfl, by simp⟩
  | label l => cases h
  | bne t mask v l => cases h
  | check t v => cases h
  | platformReset => cases h

/-- A line that presents no access leaves the host running, or stopped where it was (R98, R99, R190). -/
theorem runLine_noAccess {line : HostLine} (h : line.request = none) (s : State) :
    (s.runLine line).host.halted = s.host.halted := by
  cases line with
  | write n ofs v => cases h
  | read n ofs k => cases h
  | ports q => cases h
  | label l => rfl
  | bne t mask v l =>
    simp only [State.runLine, State.hostBranch, State.advance_host, State.setHost_host]
    split <;> rfl
  | check t v => rfl
  | platformReset => rfl

/-- What a granted access leaves of the host: past the line, with at most the data read in one temporary. -/
theorem hostAccess_granted {s : State} {r : BusReq} {q : Target} (h : checkAccess r.addr r.size = .ok q) (t : Option Nat) :
    s.hostAccess r t = (s.busAccess r).setHost
      (match t, (s.busAccess r).bus.rdata with
       | some k, some v => { s.host.next with temps := cellsWrite s.host.temps k v }
       | some _, none => s.host.next
       | none, _ => s.host.next) := by
  have he : (s.busAccess r).bus.err = false := by
    cases hw : r.we
    · rw [busAccess_read hw h]; rfl
    · rw [busAccess_write hw h]; rfl
  unfold State.hostAccess State.afterAccess
  simp only [he, Bool.false_eq_true, if_false, busAccess_host]
  cases t <;> cases (s.busAccess r).bus.rdata <;> rfl

/-- What a refused access leaves of the host: stopped at it (R66, log entry 7). -/
theorem hostAccess_refused {s : State} {r : BusReq} {e : BusRefusal} (h : checkAccess r.addr r.size = .error e)
    (t : Option Nat) : s.hostAccess r t = (s.busAccess r).setHost (s.host.stop (.busError r.addr r.size)) := by
  have he : (s.busAccess r).bus.err = true := by rw [busAccess_refused h]; simp [State.refuseAccess]
  unfold State.hostAccess State.afterAccess
  simp only [he, if_true, busAccess_host]

/-- No line changes the host's program. -/
theorem runLine_prog (s : State) (line : HostLine) : (s.runLine line).host.prog = s.host.prog := by
  have acc : ∀ (s : State) r t, (s.hostAccess r t).host.prog = s.host.prog := by
    intro s r t
    have hb := busAccess_host s r
    unfold State.hostAccess
    rcases afterAccess_host (s.busAccess r) r t with ⟨-, h⟩ | ⟨-, h | ⟨k, v, h⟩⟩ <;> rw [h] <;>
      simp [HostAgent.stop, HostAgent.next, hb]
  cases line with
  | write n ofs v => exact acc _ _ _
  | read n ofs t => exact acc _ _ _
  | ports r => exact acc _ _ _
  | label l => rfl
  | bne t mask v l => simp only [State.runLine, State.hostBranch, State.advance_host, State.setHost_host]; split <;> rfl
  | check t v => rfl
  | platformReset => rfl

/-- While a command is in flight only the reset line ends it, replaces it or moves its completion (R201). -/
theorem runLine_inFlight {s : State} (hb : s.status.busy = true) {line : HostLine} (hl : line ≠ .platformReset) :
    (s.runLine line).status.busy = true ∧ (s.runLine line).latch = s.latch ∧ (s.runLine line).delay = s.delay := by
  rcases runLine_cases s line with ⟨r, t, e⟩ | ⟨a, n, e, -⟩ | ⟨rfl, -⟩
  · rw [e, State.hostAccess, afterAccess_status, afterAccess_latch, afterAccess_delay]
    exact busAccess_inFlight hb r
  · rw [e]; exact ⟨hb, rfl, rfl⟩
  · exact absurd rfl hl

/-- A label stands where it first occurs. -/
theorem labelPos_first {prog : List HostLine} {l p : Nat} (h : prog[p]? = some (.label l))
    (hq : ∀ q < p, prog[q]? ≠ some (.label l)) : labelPos prog l = p := by
  obtain ⟨hp, he⟩ := List.getElem?_eq_some_iff.mp h
  have : prog.findIdx? (fun x => x == .label l) = some p := by
    rw [List.findIdx?_eq_some_iff_getElem]
    refine ⟨hp, by simp [he], fun j hj => ?_⟩
    have := hq j hj
    rw [List.getElem?_eq_getElem (by omega)] at this
    simpa using this
  simp [labelPos, this]

/-! Steps. -/

/-- What a step that answers a next state did. -/
theorem step_cases {s t : State} (h : step s = .next t) :
    (s.engineReady = true ∧ engineStep s = .next t) ∨
    (s.engineReady = false ∧ t = s.tick ∧ (s.host.halted ≠ none ∨ s.host.prog[s.host.pos]? = none)) ∨
    (s.engineReady = false ∧ s.host.halted = none ∧
      ∃ line, s.host.prog[s.host.pos]? = some line ∧ t = s.tick.runLine line) := by
  unfold step at h
  split at h
  · exact .inl ⟨‹_›, h⟩
  · have hr : s.engineReady = false := Bool.eq_false_of_not_eq_true ‹_›
    unfold hostStep at h
    simp only [tick_host, tick_status] at h
    split at h
    · rename_i f hf
      split at h
      · cases h; exact .inr (.inl ⟨hr, rfl, .inl (by simp [hf])⟩)
      · cases h
    · rename_i hf
      split at h
      · cases h; exact .inr (.inl ⟨hr, rfl, .inr ‹_›⟩)
      · cases h; exact .inr (.inr ⟨hr, hf, _, ‹_›, rfl⟩)

/-- A step stops only at the refused access the host stopped at, with the block idle (R66). -/
theorem step_fault {s : State} {f : Fault} (h : step s = .fault f) :
    s.host.halted = some f ∧ s.status.busy = false := by
  unfold step at h
  split at h
  · obtain ⟨t, ht⟩ := engineStep_next s
    rw [ht] at h; cases h
  · unfold hostStep at h
    simp only [tick_host, tick_status] at h
    split at h
    · split at h
      · cases h
      · cases h; exact ⟨‹_›, Bool.eq_false_of_not_eq_true ‹_›⟩
    · split at h <;> cases h

/-- A step never refuses. -/
theorem step_not_refused (s : State) (r : Refusal) : step s ≠ .refused r := by
  intro h
  unfold step at h
  split at h
  · obtain ⟨t, ht⟩ := engineStep_next s
    rw [ht] at h; cases h
  · unfold hostStep at h
    split at h
    · split at h <;> cases h
    · split at h <;> cases h

/-! What keeps the invariant. -/

/-- The invariant after a step of the host alone. -/
theorem State.Inv.setHost {s : State} (h : s.Inv) {a : HostAgent} (ht : a.temps.Pairwise (fun p q => p.1 < q.1))
    (hf : ∀ f, a.halted = some f → f ∈ s.faults ∧ ∃ ofs size, f = .busError ofs size) : (s.setHost a).Inv :=
  ⟨h.memory, h.status, h.reserved, h.spoiled, h.recorded, hf, ht⟩

theorem State.Inv.advance {s : State} (h : s.Inv) (n : Nat) : (s.advance n).Inv :=
  ⟨h.memory, h.status, h.reserved, h.spoiled, h.recorded, h.stopped, h.temps⟩

theorem State.Inv.setBus {s : State} (h : s.Inv) (r : BusResp) : (s.setBus r).Inv :=
  ⟨h.memory, h.status, h.reserved, h.spoiled, h.recorded, h.stopped, h.temps⟩

theorem State.Inv.tick {s : State} (h : s.Inv) : s.tick.Inv := by
  rw [tick_frame]
  exact ⟨h.memory, h.status, h.reserved, h.spoiled, h.recorded, h.stopped, h.temps⟩

theorem State.Inv.setMem {s : State} (h : s.Inv) {m : Memory} (hm : m.wf) : (s.setMem m).Inv :=
  ⟨hm, h.status, h.reserved, h.spoiled, h.recorded, h.stopped, h.temps⟩

theorem State.Inv.recordFault {s : State} (h : s.Inv) (f : Fault) : (s.recordFault f).Inv := by
  refine ⟨by simpa using h.memory, by simpa using h.status, by simpa using h.reserved, by simpa using h.spoiled, ?_, ?_,
    by simpa using h.temps⟩
  · intro hh
    obtain ⟨ofs, ho⟩ := h.recorded (by simpa using hh)
    exact ⟨ofs, by simp [ho]⟩
  · intro g hg
    have := h.stopped g (by simpa using hg)
    exact ⟨by simp [this.1], this.2⟩

/-- An issue keeps the invariant (R25, R34). -/
theorem State.Inv.issue {s : State} (h : s.Inv) (w : Word) : (s.issue w).Inv := by
  rw [issue_eq]
  split
  · exact ⟨h.memory, ⟨h.status.code, h.status.exclusive, h.status.inFlight⟩, h.reserved, h.spoiled, h.recorded, h.stopped,
      h.temps⟩
  · exact ⟨h.memory, ⟨rfl, by simp, fun _ => ⟨rfl, rfl⟩⟩, h.reserved, by simp, h.recorded, h.stopped, h.temps⟩

/-- Noting a hazard keeps the invariant: HAZARD and the record come together (R203). -/
theorem State.Inv.noteHazard {s : State} (h : s.Inv) (t : Target) (ofs : BitVec 12) : (s.noteHazard t ofs).Inv := by
  by_cases hc : (s.status.busy && !t.hazardFree) = true
  · rw [noteHazard_of hc]
    refine ⟨by simpa using h.memory, ?_, by simpa using h.reserved, by simp, ?_, ?_, by simpa using h.temps⟩
    · simp only [State.recordFault_status, State.setDirty_status, State.setStatus_status]
      exact ⟨h.status.code, h.status.exclusive, h.status.inFlight⟩
    · exact fun _ => ⟨ofs, by simp⟩
    · intro g hg
      have := h.stopped g (by simpa using hg)
      exact ⟨by simp [this.1], this.2⟩
  · rw [noteHazard_of_not (by simpa using hc)]; exact h

/-- SRC_FLAGS as written has its reserved bits 0 (R28). -/
theorem srcFlagsMask_reserved (v : Word) : (srcFlagsMask v).extractLsb' 2 30 = 0 := by
  apply BitVec.eq_of_getLsbD_eq
  intro i hi
  simp [srcFlagsMask]

/-- A granted write keeps the invariant. -/
theorem State.Inv.writeTarget {s : State} (h : s.Inv) {ofs : BitVec 12} {size : BitVec 2} {t : Target}
    (hc : checkAccess ofs size = .ok t) (v : Word) : (s.writeTarget t ofs.toNat v).Inv := by
  rcases t with r | ⟨m, n⟩
  · cases r <;> simp only [State.writeTarget, State.writeReg]
    case cmd => exact h.issue v
    case status => exact h
    case srcFlags =>
      exact ⟨h.memory, h.status, srcFlagsMask_reserved v, h.spoiled, h.recorded, h.stopped, h.temps⟩
    all_goals exact ⟨h.memory, h.status, h.reserved, h.spoiled, h.recorded, h.stopped, h.temps⟩
  · exact h.setMem (Memory.wf_fill h.memory _ (isStorage_of_checkAccess hc))

/-- An access keeps the invariant. -/
theorem State.Inv.busAccess {s : State} (h : s.Inv) (r : BusReq) : (s.busAccess r).Inv := by
  rcases busAccess_cases s r with ⟨-, hb⟩ | ⟨t, hc, -, hb⟩ | ⟨t, -, -, hb⟩ <;> rw [hb]
  · exact (h.setBus _).recordFault _
  · exact ((h.noteHazard t r.addr).writeTarget hc _).setBus _
  · exact (h.setBus _).advance 4

/-- The reset event establishes the block's part of the invariant afresh (R190). -/
theorem State.Inv.resetEvent {s : State} (h : s.Inv) : s.resetEvent.Inv :=
  ⟨Memory.wf_nil, ⟨rfl, by simp [State.resetEvent, Status.reset], by simp [State.resetEvent, Status.reset]⟩,
    by simp [State.resetEvent],
    by simp [State.resetEvent], by simp [State.resetEvent, Status.reset], h.stopped, h.temps⟩

end Sys2Proof.Machine
end

