-- ==== Sys2Proof/Tests/Slice0.lean ====
section
/-! SUPPORT. Tests. Every expected value is the spec's own (95_test_vectors.md, or the worked example of the rule named) or
worked out by hand from the rule named. The `test_witness_` theorems show, for each statement with hypotheses, a state and operands
that meet all of them together. -/

namespace Sys2Proof.Tests

open Sys2Proof.Machine

/-! Helpers. -/

/-- The state after a step, if it is a next state. -/
def after : Host.Outcome State Fault Refusal → Option State
  | .next s => some s
  | .fault _ => none
  | .refused _ => none

/-- STATUS after a step. -/
def statusAfter (o : Host.Outcome State Fault Refusal) : Option Word := (after o).map (·.status.word)

/-- A byte after a step. -/
def byteAfter (o : Host.Outcome State Fault Refusal) (a : Nat) : Option Byte := (after o).bind (·.mem.read a)

/-- A write of the host's notation. -/
def wr (s : State) (n : Width) (ofs : BitVec 12) (v : Word) : State := s.busAccess (writeReq n ofs v)

/-- What a read of the host's notation returns. -/
def rd (s : State) (n : Width) (ofs : BitVec 12) : Option Word := (s.busAccess (readReq n ofs)).bus.rdata

/-- After reset, with the command word accepted and its completion due. -/
def issued (w : Nat) : State := State.reset.withFetchWord 32 w

/-- After reset, with the host registers of the standard setup written. -/
def setup : State := { State.reset with srcFlags := 3, imgW := 16, imgH := 20 }

/-- After reset, with a frame of 80 bytes in FRM and FRM_LEN = 80. -/
def framed (f : Nat → Byte) : State := (State.reset.setMem (Memory.fill [] 0x200 f 80)).setFrmLen 80

/-- After reset, with a collection of 80 bytes in GLY. -/
def glyphs (f : Nat → Byte) : State := State.reset.setMem (Memory.fill [] 0x100 f 80)

/-- After reset, with a command in flight that a hazardous write has spoiled. -/
def spoiledRun : State := wr (issued 1) .word 0x008 16

/-! WellFormed refuses what it should (R98, R99). -/

theorem test_wf_branch_to_no_label : progWf [.read .word 0x004 0, .bne 0 1 0 7] = false := by decide
theorem test_wf_label_twice : progWf [.label 7, .bne 0 1 0 7, .label 7] = false := by decide
theorem test_wf_fill_length : fillWf 0x800 6 = false := by decide
theorem test_wf_fill_offset : fillWf 0x802 4 = false := by decide
theorem test_wf_fill_past_window : fillWf 0xFFC 8 = false ∧ fillWf 0xFFC 4 = true := by decide
theorem test_wf_run : progWf (runLines .extract 0 0) = true ∧ fillWf 0x800 1280 = true := by decide

/-! Decoding: words written out from OP in bits 7:0 and RSV in bits 31:8 (R90, R91, R95). -/

theorem test_decode_extract : decodeCmd (0b000000000000000000000000#24 ++ 0b00000001#8) = .ok .extract := by decide
theorem test_decode_encode : decodeCmd (0b000000000000000000000000#24 ++ 0b00000010#8) = .ok .encode := by decide
theorem test_decode_decode : decodeCmd (0b000000000000000000000000#24 ++ 0b00000011#8) = .ok .decode := by decide
theorem test_decode_zero : decodeCmd (0b000000000000000000000000#24 ++ 0b00000000#8) = .error .opZero := by decide
theorem test_decode_op_4 : decodeCmd (0b000000000000000000000000#24 ++ 0b00000100#8) = .error .opUnassigned := by decide
theorem test_decode_rsv_low : decodeCmd (0b000000000000000000000001#24 ++ 0b00000001#8) = .error .rsvNotZero := by decide
theorem test_decode_rsv_high : decodeCmd (0b100000000000000000000000#24 ++ 0b00000001#8) = .error .rsvNotZero := by decide
theorem test_decode_bytes_little_endian : decodeBytes [0x02, 0x00, 0x00, 0x00, 0xAA] = .ok (.encode, [0xAA]) := by decide
theorem test_decode_bytes_short : decodeBytes [0x01, 0x00, 0x00] = .error .short := by decide

/-- The port values of lines of 95_test_vectors.md programs P1, P2 and P3 (R98). -/
theorem test_line_ports :
    writeReq .word 0x010 0x00000003 = ⟨true, 2, 0x010, 0x00000003⟩ ∧ writeReq .byte 0x9D4 0x00 = ⟨true, 0, 0x9D4, 0⟩ ∧
    writeReq .byte 0x207 0xF3 = ⟨true, 0, 0x207, 0xF3000000⟩ ∧ readReq .byte 0x21B = ⟨false, 0, 0x21B, 0⟩ := by decide

/-- R98 at misaligned offsets, lanes by hand: a W32's data is the value as it is, a W16's starts in lane `ofs mod 4`. -/
theorem test_line_ports_misaligned :
    (writeReq .word 0x101 0x44332211).wdata = 0x44332211 ∧ (writeReq .half 0x101 0x2211).wdata = 0x00221100 := by decide

/-- Which lines present an access (R98, R99). -/
theorem test_line_request :
    HostLine.request (.write .byte 0x207 0xF3) = some ⟨true, 0, 0x207, 0xF3000000⟩ ∧
    HostLine.request (.bne 0 1 0 7) = none ∧ HostLine.request (.check 0 1) = none := by decide

/-- R99: `FILL 0x200, 8, 0xF3`, `WAIT` and `RUN EXTRACT`. -/
theorem test_pseudo_instructions :
    fillLines 0x200 8 0xF3 = [.write .word 0x200 0xF3F3F3F3, .write .word 0x204 0xF3F3F3F3] ∧
    runLines .extract 1 2 =
      [.write .word 0x000 0x00000001, .label 1, .read .word 0x004 2, .bne 2 0x1 0x0 1] := by decide

/-! EXTRACT (95_test_vectors.md sections 2 to 5). -/

/-- Section 3.3: the row with reds 0x7F 0x80 0x00 0xFF is 0x0A, and with 0xFF 0xFF 0xFF 0x00 is 0x01. -/
theorem test_extract_rows :
    rowByte (fun k => if k = 0 then 0x7F else if k = 4 then 0x80 else if k = 8 then 0x00 else 0xFF) 0 0 = 0x0A ∧
    rowByte (fun k => if k = 12 then 0x00 else 0xFF) 0 0 = 0x01 := by decide

/-- Program P2: the red byte 468 of pixel (5, 7) sets bit 2 of GLY[27]. The four pixels of that cell row are written. -/
theorem test_extract_pixel :
    byteAfter (exec .extract { setup with mem := [(0x9D0, 0xFF), (0x9D4, 0x00), (0x9D8, 0xFF), (0x9DC, 0x80)] }) 0x11B
      = some 0x04 := by decide

/-- Section 2.1, the corners of the index table. -/
theorem test_pix_index :
    pixIndex 0 4 3 = 268 ∧ pixIndex 3 0 3 = 60 ∧ pixIndex 10 3 2 = 872 ∧ pixIndex 12 4 0 = 1216 ∧ pixIndex 15 4 3 = 1276 := by
  decide

/-- Section 5.1: every combination of the three checks, with GLY unchanged on error. -/
theorem test_extract_priority :
    statusAfter (exec .extract (wr (wr State.reset .word 0x010 2) .word 0x008 17)) = some 0x12 ∧
    statusAfter (exec .extract { setup with srcFlags := 1, imgW := 17 }) = some 0x22 ∧
    statusAfter (exec .extract { setup with srcFlags := 1 }) = some 0x32 ∧
    statusAfter (exec .extract setup) = some 0x02 ∧
    byteAfter (exec .extract { setup with srcFlags := 1, mem := [(0x100, 0x5A)] }) 0x100 = some 0x5A := by decide

/-- Section 5.2: all 32 bits of the size are compared; a transposed image fails. -/
theorem test_extract_size :
    statusAfter (exec .extract { setup with imgW := 0x00010010 }) = some 0x22 ∧
    statusAfter (exec .extract { setup with imgH := 0x80000014 }) = some 0x22 ∧
    statusAfter (exec .extract { setup with imgW := 20, imgH := 16 }) = some 0x22 := by decide

/-! ENCODE and DECODE (95_test_vectors.md sections 6 and 7). -/

set_option maxRecDepth 20000 in
/-- Section 6, row 3: byte k = k is copied without masking, FRM_LEN becomes 80, HINIB stays 0. -/
theorem test_encode_copies :
    byteAfter (exec .encode (glyphs (BitVec.ofNat 8))) 0x24F = some 0x4F ∧
    (after (exec .encode { glyphs (BitVec.ofNat 8) with frmLen := 0x1234 })).map (·.frmLen) = some 0x50 ∧
    statusAfter (exec .encode (glyphs (BitVec.ofNat 8))) = some 0x02 := by decide

set_option maxRecDepth 20000 in
/-- Section 7.2: FRM[7] = 0xF3 passes through unmasked and sets HINIB; 80 bytes 0x0F do not set it. -/
theorem test_decode_high_nibble :
    byteAfter (exec .decode (framed fun k => if k = 7 then 0xF3 else 0)) 0x107 = some 0xF3 ∧
    statusAfter (exec .decode (framed fun k => if k = 7 then 0xF3 else 0)) = some 0x102 ∧
    statusAfter (exec .decode (framed fun k => if k = 79 then 0x10 else 0)) = some 0x102 ∧
    statusAfter (exec .decode (framed fun _ => 0x0F)) = some 0x02 := by decide

/-- Section 7.1: every length but 80 fails. -/
theorem test_decode_length :
    statusAfter (exec .decode { State.reset with frmLen := 79 }) = some 0x42 ∧
    statusAfter (exec .decode { State.reset with frmLen := 81 }) = some 0x42 ∧
    statusAfter (exec .decode { State.reset with frmLen := 0x00010050 }) = some 0x42 ∧
    byteAfter (exec .decode { State.reset with mem := [(0x100, 0x5A)] }) 0x100 = some 0x5A := by decide

/-! Steps (95_test_vectors.md sections 8 and 10). -/

/-- Section 8: reserved words run like commands and end with STATUS 0x62. -/
theorem test_step_reserved :
    statusAfter (step (issued 0)) = some 0x62 ∧ statusAfter (step (issued 4)) = some 0x62 ∧
    statusAfter (step (issued 0x80000001)) = some 0x62 ∧ statusAfter (step (issued 0xFFFFFFFF)) = some 0x62 := by decide

/-- The first step after reset with a command accepted runs that command. -/
theorem test_step_runs_command :
    step (issued 1) = exec .extract (issued 1) ∧ step (issued 2) = exec .encode (issued 2) ∧
    step (issued 3) = exec .decode (issued 3) ∧ (issued 1).status.word = 1 := ⟨rfl, rfl, rfl, by decide⟩

/-- After reset nothing is in flight and the host has no program: the block idles (R182, R192). -/
theorem test_step_idle : step State.reset = .next State.reset := by rfl

/-- The host's EXTRACT line issues; STATUS then reads 1 (section 8). -/
theorem test_step_host_issues :
    (after (step (State.reset.loadHost [commandLine .extract]))).map (fun s => (s.status.word, s.latch, s.host.pos))
      = some (1, 1, 1) := by decide

/-- WAIT while BUSY = 1 goes back to its label (R99): the temporary 2 has read STATUS = 1. -/
theorem test_step_wait_loops :
    let s := { issued 1 with host := { HostAgent.idle with prog := waitLines 1 2, pos := 2, temps := [(2, 1)] } }
    (s.runLine (.bne 2 0x1 0x0 1)).host.pos = 0 := by decide

/-- CHECK of a value that differs is kept, of one that holds is not (R99). -/
theorem test_step_check :
    let s := { State.reset with host := { HostAgent.idle with temps := [(0, 0x50)] } }
    (s.runLine (.check 0 0x50)).host.checkFailed = false ∧ (s.runLine (.check 0 0x51)).host.checkFailed = true := by decide

/-- Program P6: ENCODE written while EXTRACT is in flight is dropped with OVERRUN (b), and accepted after it completes (a). -/
theorem test_interleavings :
    let s := { setup.withFetchWord 32 1 with host := { HostAgent.idle with prog := [commandLine .encode] } }
    (after (step { s with delay := 1 })).map (fun t => (t.status.word, t.latch, t.frmLen)) = some (0x00010001, 1, 0) ∧
    ((after (step s)).bind fun t => after (step t)).map (fun t => (t.status.word, t.latch)) = some (1, 2) := by decide

/-- Section 10.2: a write of IMG_W with EXTRACT in flight is performed, sets HAZARD and is a fault of the run; writes of STATUS
and reads of PIX are no hazard. -/
theorem test_hazard :
    spoiledRun.status.word = 0x00020001 ∧ spoiledRun.imgW = 16 ∧ spoiledRun.faults = [.hostHazard 0x008] ∧
    (wr (issued 1) .word 0x004 0).status.word = 1 ∧
    (rd { issued 1 with mem := [(0x800, 0x10), (0x801, 0x20), (0x802, 0x30), (0x803, 0x40)] } .word 0x800)
      = some 0x40302010 := by decide

/-- Section 10.2: ENCODE after a hazardous write still has ERRCODE 0 and completes. -/
theorem test_hazard_completes :
    (after (step (wr (issued 2) .byte 0x100 0xAA))).map (fun t => (t.status.busy, t.status.errcode, t.status.hazard))
      = some (false, 0, true) := by decide

/-- Section 10.3: reset clears STATUS 0x00030042 and the registers, makes bytes unwritten and abandons a command in flight. -/
theorem test_reset :
    let s := { setup with
      status := ⟨false, true, 4, false, true, true⟩, frmLen := 80, mem := [(0x100, 1)],
      host := { HostAgent.idle with prog := [.platformReset] } }
    s.status.word = 0x00030042 ∧
    (after (step s)).map (fun t => (t.status.word, t.imgW, t.imgH, t.srcFlags, t.frmLen)) = some (0, 0, 0, 0, 0) ∧
    byteAfter (step s) 0x100 = none ∧
    statusAfter (step { s with status := (issued 1).status, delay := 5 }) = some 0 := by decide

/-! The bus (95_test_vectors.md section 9; 20_memory.md R62). -/

theorem test_bus_little_endian :
    let s := wr (wr (wr (wr State.reset .byte 0x100 0x08) .byte 0x101 0x00) .byte 0x102 0x0F) .byte 0x103 0x01
    rd s .word 0x100 = some 0x010F0008 ∧ rd s .half 0x102 = some 0x010F ∧ rd s .byte 0x103 = some 0x01 := by decide

theorem test_bus_registers :
    rd State.reset .word 0x000 = some 0 ∧ (wr State.reset .word 0x004 0xFFFFFFFF).status.word = 0 ∧
    rd (wr State.reset .word 0x008 0x12345678) .word 0x008 = some 0x12345678 ∧
    rd (wr State.reset .word 0x010 0xFFFFFFFF) .word 0x010 = some 3 ∧
    rd (wr State.reset .word 0x010 0xFFFFFFFC) .word 0x010 = some 0 := by decide

/-- The refused accesses of section 9, by the check that refuses them. -/
theorem test_bus_refused :
    checkAccess 0x004 1 = .error .registerWidth ∧ checkAccess 0x008 0 = .error .registerWidth ∧
    checkAccess 0x018 2 = .error .reservedOffset ∧ checkAccess 0x0FC 2 = .error .reservedOffset ∧
    checkAccess 0x102 2 = .error .misaligned ∧ checkAccess 0x101 1 = .error .misaligned ∧
    checkAccess 0x150 2 = .error .reservedOffset ∧ checkAccess 0x250 2 = .error .reservedOffset ∧
    checkAccess 0xD00 2 = .error .reservedOffset ∧ checkAccess 0xFFC 2 = .error .reservedOffset ∧
    checkAccess 0x100 3 = .error .badSize := by decide

/-- The last words and bytes inside the windows are granted (section 9). -/
theorem test_bus_granted :
    checkAccess 0x014 2 = .ok (.reg .frmLen) ∧ checkAccess 0x14C 2 = .ok (.mem .gly 4) ∧
    checkAccess 0x14F 0 = .ok (.mem .gly 1) ∧ checkAccess 0x24C 2 = .ok (.mem .frm 4) ∧
    checkAccess 0x7FF 0 = .error .reservedOffset ∧ checkAccess 0x800 0 = .ok (.mem .pix 1) ∧
    checkAccess 0xCFC 2 = .ok (.mem .pix 4) := by decide

/-- A refused access leaves every register and byte, and the host stops at it (R66). -/
theorem test_bus_error_stops :
    let s := State.reset.loadHost [.read .word 0x102 0]
    ((after (step s)).map fun t => (t.bus.err, t.faults, t.mem, t.status.word)) = some (true, [.busError 0x102 2], [], 0) ∧
    ((after (step s)).map fun t => t.host.halted) = some (some (.busError 0x102 2)) := by decide

/-- The window's first and last offsets on the bus (R67). -/
theorem test_window :
    Config.busAddress 0x000 = Config.fondantBase ∧ Config.busAddress 0xFFF = Config.fondantBase + 4095 := ⟨rfl, rfl⟩

/-- The worked values of STATUS of section 10.1 (R24). -/
theorem test_status_word :
    Status.word ⟨true, false, 0, false, false, false⟩ = 0x00000001 ∧ Status.word ⟨false, true, 0, true, false, false⟩ = 0x102 ∧
    Status.word ⟨false, true, 6, false, true, false⟩ = 0x00010062 ∧
    Status.word ⟨false, true, 4, false, false, true⟩ = 0x00020042 := by decide

/-! Witnesses: a state and operands that meet every hypothesis of a statement together, at its ranges' boundaries. -/

theorem test_witness_ReservedWordsByClass :
    (0x00000100#32).toNat / 256 ≠ 0 ∧ 4 ≤ (0x00000004#32).toNat ∧ (0x00000004#32).toNat ≤ 255 ∧
    4 ≤ (0x000000FF#32).toNat ∧ (0x000000FF#32).toNat ≤ 255 ∧ decodeCmd (issued 0).latch = .error .opZero := by decide

theorem test_witness_CommandBytesRoundTrip :
    Instr.decode.wf = true ∧ decodeBytes [0x03, 0x00, 0x00, 0x00, 0xAA] = .ok (.decode, [0xAA]) := by decide

/-- Both branches: the CMD write of R34 while busy and while idle. -/
theorem test_witness_CmdWriteIssuesOrIsDropped :
    (issued 1).status.busy = true ∧ State.reset.status.busy = false ∧
    (wr (issued 1) .word 0x000 2).latch = 1 ∧ (wr State.reset .word 0x000 2).latch = 2 := by decide

theorem test_witness_AcceptedIssueStartsACleanWindow : State.reset.status.busy = false := by decide

theorem test_witness_StepRunsTheDecodedCommand :
    (issued 2).status.busy = true ∧ (issued 2).delay = 0 ∧ decodeCmd (issued 2).latch = .ok .encode ∧
    Instr.encode.wf = true := by decide

/-- While idle, and with one step of LATENCY left. -/
theorem test_witness_HostLineRunsUntilCompletionIsDue :
    let s := State.reset.loadHost [.label 0]
    let u := { issued 1 with delay := 1, host := s.host }
    (¬ (s.status.busy = true ∧ s.delay = 0) ∧ s.host.halted = none ∧ s.host.prog[s.host.pos]? = some (.label 0)) ∧
    (¬ (u.status.busy = true ∧ u.delay = 0) ∧ u.host.halted = none ∧ u.host.prog[u.host.pos]? = some (.label 0)) := by
  decide

/-- An idle block with no host line left, and one that its host's line wakes. -/
theorem test_witness_IdleBlockWakesOnlyByIssue :
    let s := State.reset.loadHost [commandLine .decode]
    (State.reset.status.busy = false ∧ State.reset.host.halted = none ∧
      State.reset.host.prog[State.reset.host.pos]? = none) ∧
    s.status.busy = false ∧ step s = .next (s.runLine (commandLine .decode)) ∧
    (s.runLine (commandLine .decode)).status.busy = true := ⟨by decide, by decide, rfl, by decide⟩

theorem test_witness_ReservedWordCompletesIllegal :
    let s := issued 0
    let u := issued 4
    (s.status.busy = true ∧ s.delay = 0 ∧ s.latch ≠ 1#32 ∧ s.latch ≠ 2#32 ∧ s.latch ≠ 3#32 ∧ s.dirty = false) ∧
    (u.status.busy = true ∧ u.delay = 0 ∧ u.latch ≠ 1#32 ∧ u.latch ≠ 2#32 ∧ u.latch ≠ 3#32 ∧ u.dirty = false) := by decide

/-- Each of the four clauses. -/
theorem test_witness_ExtractCommand :
    State.reset.dirty = false ∧ setup.dirty = false ∧ State.reset.srcFlags.getLsbD 0 = false ∧
    (let s := { setup with imgW := 15 };
      s.srcFlags.getLsbD 0 = true ∧ s.imgW ≠ 16) ∧
    (let s := { setup with srcFlags := 1 };
      s.srcFlags.getLsbD 0 = true ∧ s.imgW = 16 ∧ s.imgH = 20 ∧ s.srcFlags.getLsbD 1 = false) ∧
    setup.srcFlags.getLsbD 0 = true ∧ setup.imgW = 16 ∧ setup.imgH = 20 ∧ setup.srcFlags.getLsbD 1 = true := by decide

/-- A clean success, a clean failure and a spoiled run. -/
theorem test_witness_ExtractWritesOnlyGlyphsAndStatus :
    exec .extract setup = .next setup.extractGlyphs ∧ setup.dirty = false ∧
    exec .extract State.reset = .next (State.reset.raise .imageDecodeFailure) ∧
    exec .extract spoiledRun = .next spoiledRun.extractHazard := ⟨rfl, rfl, rfl, rfl⟩

/-- Two states that differ in a green and an alpha byte only. -/
theorem test_witness_ExtractSeesOnlyRedBytes :
    let s := { setup with mem := [(0x801, 0x00)] }
    let u := { setup with mem := [(0x801, 0xFF), (0xCFF, 0x11)] }
    s.dirty = false ∧ u.dirty = false ∧ s.srcFlags = u.srcFlags ∧ s.imgW = u.imgW ∧ s.imgH = u.imgH ∧ s.draws = u.draws ∧
    (∀ p < 320, s.mem.read (0x800 + 4 * p) = u.mem.read (0x800 + 4 * p)) ∧
    ∀ k < 80, s.mem.read (0x100 + k) = u.mem.read (0x100 + k) := by
  refine ⟨rfl, rfl, rfl, rfl, rfl, rfl, fun p _ => ?_, fun k _ => ?_⟩
  · simp only [Memory.read, cellsRead]
    split_ifs <;> first | rfl | omega
  · simp only [Memory.read, cellsRead]
    split_ifs <;> first | rfl | omega

/-- With a GLY that differs from the state's at its first and its last byte. -/
theorem test_witness_ExtractedBytesAreNibbles :
    setup.dirty = false ∧ exec .extract setup = .next setup.extractGlyphs ∧ setup.extractGlyphs.status.errcode = 0 ∧
    ∀ a, a < 0x100 ∨ 0x150 ≤ a → Memory.read [(0x100, 0x0F), (0x14F, 0x0F)] a = setup.mem.read a := by
  refine ⟨rfl, rfl, by rw [State.extractGlyphs_status]; rfl, fun a ha => ?_⟩
  have h1 : ¬ a = 0x100 := by omega
  have h2 : ¬ a = 0x14F := by omega
  simp only [Memory.read, cellsRead, if_neg h1, if_neg h2]
  rfl

/-- The corner pixels and the corner triples of the demultiplexer. -/
theorem test_witness_DemultiplexerIsABijection :
    glyphOf 15 19 = 15 ∧ rowOf 19 = 4 ∧ colOf 15 = 3 ∧ glyphOf 0 0 = 0 ∧ pixIndex 0 0 0 = 0 ∧
    pixIndex 15 4 3 = pixIndex 15 4 3 ∧ pixIndex 15 4 3 = 1276 := by decide

/-- The hypotheses at the first and the last pixel. -/
theorem test_witness_PixelDecidesOneGlyphBit :
    0 < 16 ∧ 0 < 20 ∧ 15 < 16 ∧ 19 < 20 ∧ setup.dirty = false ∧ setup.srcFlags.getLsbD 0 = true ∧
    setup.srcFlags.getLsbD 1 = true ∧ setup.imgW = 16 ∧ setup.imgH = 20 := by decide

theorem test_witness_EncodeCommand : (glyphs fun _ => 0x0F).dirty = false := rfl

/-- A wrong and a right length. -/
theorem test_witness_DecodeCommand :
    State.reset.dirty = false ∧ State.reset.frmLen ≠ 80 ∧ (framed fun _ => 8).dirty = false ∧ (framed fun _ => 8).frmLen = 80 :=
  ⟨rfl, by decide, rfl, rfl⟩

theorem test_witness_CodecWritesOnlyItsResults :
    exec .encode State.reset = .next State.reset.encodeFrame ∧ State.reset.dirty = false ∧
    exec .decode State.reset = .next (State.reset.raise .schemaMismatch) ∧
    (State.reset.raise .schemaMismatch).status.errcode ≠ 0 := ⟨rfl, rfl, rfl, by decide⟩

/-- Two polls of STATUS as the reads around the issue, for the three statements below. -/
theorem test_witness_reads_between : ∀ r ∈ [readReq .word 0x004, readReq .byte 0x200], r.we = false := by decide

theorem test_witness_EncodeThenDecodeIsIdentity :
    (glyphs fun k => BitVec.ofNat 8 (37 * k + 11)).dirty = false ∧
    ∀ k < 80, (glyphs fun k => BitVec.ofNat 8 (37 * k + 11)).mem.read (0x100 + k) = some (BitVec.ofNat 8 (37 * k + 11)) :=
  ⟨rfl, fun _ h => Memory.read_fill_at [] 0x100 _ h⟩

theorem test_witness_DecodeThenEncodeIsIdentity :
    (framed fun _ => 0xF3).dirty = false ∧ (framed fun _ => 0xF3).frmLen = 80 ∧
    ∀ k < 80, (framed fun _ => 0xF3).mem.read (0x200 + k) = some 0xF3 :=
  ⟨rfl, rfl, fun _ h => Memory.read_fill_at [] 0x200 _ h⟩

theorem test_witness_FrameBitMap :
    setup.dirty = false ∧ exec .extract setup = .next setup.extractGlyphs ∧ setup.extractGlyphs.status.errcode = 0 :=
  ⟨rfl, rfl, by rw [State.extractGlyphs_status]; rfl⟩

theorem test_witness_ErrorsArePrecise :
    State.reset.dirty = false ∧ exec .extract State.reset = .next (State.reset.raise .imageDecodeFailure) ∧
    (State.reset.raise .imageDecodeFailure).status.errcode ≠ 0 := ⟨rfl, rfl, by decide⟩

/-- Two states with the same operands and different memory, for EXTRACT and for DECODE. -/
theorem test_witness_OutcomeIsAFunctionOfTheOperands :
    let u := { State.reset with mem := [(0x100, 1)] }
    State.reset.dirty = false ∧ u.dirty = false ∧ State.reset.srcFlags = u.srcFlags ∧ State.reset.imgW = u.imgW ∧
    State.reset.imgH = u.imgH ∧ State.reset.frmLen = u.frmLen ∧
    exec .extract State.reset = .next (State.reset.raise .imageDecodeFailure) ∧
    exec .extract u = .next (u.raise .imageDecodeFailure) ∧
    exec .decode State.reset = .next (State.reset.raise .schemaMismatch) ∧
    exec .decode u = .next (u.raise .schemaMismatch) := ⟨rfl, rfl, rfl, rfl, rfl, rfl, rfl, rfl, rfl, rfl⟩

theorem test_witness_CompletionNeverWritesTheImage :
    engineStep (issued 0) = .next (issued 0).completeReserved ∧
    engineStep (issued 2) = .next (issued 2).encodeFrame := ⟨rfl, rfl⟩

/-- The first and the last register it covers, and the first and the last byte of the memories. -/
theorem test_witness_WriteWhileBusyIsAHazard :
    (issued 1).status.busy = true ∧ (writeReq .word 0x008 16).we = true ∧ (writeReq .byte 0xCFF 16).we = true ∧
    checkAccess 0x008 2 = .ok (.reg .imgW) ∧ checkAccess 0x014 2 = .ok (.reg .frmLen) ∧
    checkAccess 0x100 0 = .ok (.mem .gly 1) ∧ checkAccess 0xCFF 0 = .ok (.mem .pix 1) := by decide

theorem test_witness_HazardLeavesResultsUnderNoLaw : spoiledRun.dirty = true := by decide

/-- A step that keeps a set sticky bit, and an access with a command in flight. -/
theorem test_witness_StickyBitsClearOnlyAtReset :
    let s := (wr (issued 0) .word 0x000 1)
    step s = .next s.completeReserved ∧ s.host.prog[s.host.pos]? ≠ some .platformReset ∧ s.status.overrun = true ∧
    spoiledRun.status.hazard = true ∧ spoiledRun.status.busy = true := ⟨rfl, by decide, by decide, by decide, by decide⟩

theorem test_witness_EveryAcceptedCommandCompletes :
    let s := { issued 1 with delay := 3, host := { HostAgent.idle with prog := waitLines 0 0 } }
    s.status.busy = true ∧ ∀ line ∈ s.host.prog, line ≠ .platformReset := by decide

/-- The last half word, word and byte of the three memories. -/
theorem test_witness_GrantedAccessStaysInItsMemory :
    checkAccess 0x14E 1 = .ok (.mem .gly 2) ∧ checkAccess 0x24C 2 = .ok (.mem .frm 4) ∧
    checkAccess 0xCFF 0 = .ok (.mem .pix 1) := by decide

theorem test_witness_RefusedAccessChangesNothing :
    checkAccess (readReq .word 0x102).addr (readReq .word 0x102).size = .error .misaligned := by decide

/-- Every clause: each register, GLY while busy, PIX while busy, and GLY while idle. -/
theorem test_witness_HostReadReturns :
    (readReq .word 0x000).we = false ∧ checkAccess 0x000 2 = .ok (.reg .cmd) ∧ checkAccess 0x004 2 = .ok (.reg .status) ∧
    checkAccess 0x008 2 = .ok (.reg .imgW) ∧ checkAccess 0x00C 2 = .ok (.reg .imgH) ∧
    checkAccess 0x010 2 = .ok (.reg .srcFlags) ∧ checkAccess 0x014 2 = .ok (.reg .frmLen) ∧
    checkAccess 0x14F 0 = .ok (.mem .gly 1) ∧ checkAccess 0xCFE 1 = .ok (.mem .pix 2) ∧
    (issued 1).status.busy = true ∧ State.reset.status.busy = false := by decide

theorem test_witness_RegisterWritesStore : State.reset.status.busy = false := by decide

/-- The last word of GLY and the last byte of PIX. -/
theorem test_witness_MemoryWriteThenRead :
    State.reset.status.busy = false ∧ checkAccess 0x14C Width.word.sizeCode = .ok (.mem .gly Width.word.bytes) ∧
    checkAccess 0xCFF Width.byte.sizeCode = .ok (.mem .pix Width.byte.bytes) := by decide

/-- A granted read; an idempotent write while idle and one while busy; a first CMD write. -/
theorem test_witness_OnlyCmdWritesHaveSideEffects :
    (readReq .word 0x004).we = false ∧ checkAccess 0x004 2 = .ok (.reg .status) ∧ (writeReq .byte 0x100 1).we = true ∧
    checkAccess 0x100 0 = .ok (.mem .gly 1) ∧ (issued 1).status.busy = true ∧ State.reset.status.busy = false := by decide

theorem test_witness_WindowAddressesRoundTrip :
    Config.windowOffset (Config.fondantBase + 4095) = some 0xFFF ∧ Config.fondantBase + 4095 = Config.busAddress 0xFFF := by
  refine ⟨?_, rfl⟩
  unfold Config.windowOffset
  rw [if_pos ⟨by omega, by omega⟩, Nat.add_sub_cancel_left]
  rfl

/-- The last lanes a byte, a half word and a word can stand in. -/
theorem test_witness_HostLinePorts :
    (0xFFE : BitVec 12).toNat % 4 ≠ 3 ∧ (0xFFD : BitVec 12).toNat % 4 ≠ 3 ∧
    (0xFFF : BitVec 12).toNat % Width.byte.bytes = 0 ∧ (0xFFE : BitVec 12).toNat % Width.half.bytes = 0 := by decide

theorem test_witness_HostBranches :
    let s := State.reset.loadHost [.label 3, .label 7, .label 7]
    s.host.prog[1]? = some (.label 7) ∧ ∀ q < 1, s.host.prog[q]? ≠ some (.label 7) := by decide

/-- A register, the last byte of FRM and the last word of PIX. -/
theorem test_witness_HostReadsIntoItsTemporary :
    checkAccess 0x014 Width.word.sizeCode = .ok (.reg .frmLen) ∧ checkAccess 0x24F Width.byte.sizeCode = .ok (.mem .frm 1) ∧
    checkAccess 0xCFC Width.word.sizeCode = .ok (.mem .pix 4) := by decide

/-- A stopped host with the block idle, which meets the invariant, the refused access that stops it, and the step that does. -/
theorem test_witness_StepStopsOnlyAtARefusedAccess :
    let s := State.reset.runLine (.read .word 0x102 0)
    let u := State.reset.loadHost [.read .word 0x102 0]
    step s = .fault (.busError 0x102 2) ∧ s.host.halted = some (.busError 0x102 2) ∧ s.status.busy = false ∧
    checkAccess 0x102 2 = .error .misaligned ∧ s.Inv ∧
    step u = .next (u.runLine (.read .word 0x102 0)) ∧
    (u.runLine (.read .word 0x102 0)).host.halted ≠ u.host.halted := by
  refine ⟨rfl, by decide, by decide, by decide, ⟨by decide, ⟨by decide, by decide, by decide⟩, by decide, by decide, by decide,
    fun f h => ?_, by decide⟩, rfl, by decide⟩
  have hf : f = .busError 0x102 2 := by
    have : some (Fault.busError 0x102 2) = some f := h
    exact (Option.some.inj this).symm
  subst hf
  exact ⟨by decide, _, _, rfl⟩

theorem test_witness_GrantedWriteAnswers :
    (writeReq .byte 0x14F 1).we = true ∧ checkAccess 0x14F 0 = .ok (.mem .gly 1) ∧ checkAccess 0x000 2 = .ok (.reg .cmd) := by
  decide

/-- A word of GLY, a byte of PIX and a register, by a write line and by their port values. -/
theorem test_witness_HostLinesGoOn :
    checkAccess 0x14C Width.word.sizeCode = .ok (.mem .gly 4) ∧ checkAccess 0xCFF Width.byte.sizeCode = .ok (.mem .pix 1) ∧
    checkAccess (readReq .word 0x014).addr (readReq .word 0x014).size = .ok (.reg .frmLen) := by decide

/-- Each command's clause, and two reads of the unwritten last byte of PIX with one idle step between them. -/
theorem test_witness_FreeValuesAreNewAtEachUse :
    let s := State.reset
    let r := readReq .byte 0xCFF
    step s = .next s ∧ exec .extract setup = .next setup.extractGlyphs ∧ setup.dirty = false ∧
    setup.extractGlyphs.status.errcode = 0 ∧ exec .encode s = .next s.encodeFrame ∧
    exec .decode (s.setFrmLen 80) = .next ((s.setFrmLen 80).decodeGlyphs (fun i j => (s.setFrmLen 80).frmByte (5 * i + j))) ∧
    ((s.setFrmLen 80).decodeGlyphs (fun i j => (s.setFrmLen 80).frmByte (5 * i + j))).status.errcode = 0 ∧
    r.we = false ∧ checkAccess r.addr r.size = .ok (.mem .pix 1) ∧ s.mem.read (r.addr.toNat + 0) = none ∧
    Host.Core.run Sys2Proof.core 1 (s.busAccess r) = .next (s.busAccess r) ∧ (s.busAccess r).status.busy = false ∧
    (s.busAccess r).mem.read (r.addr.toNat + 0) = none := by
  refine ⟨rfl, rfl, rfl, ?_, rfl, rfl, ?_, rfl, by decide, rfl, rfl, by decide, rfl⟩
  · rw [State.extractGlyphs_status]; rfl
  · rw [State.decodeGlyphs_status]; rfl

theorem test_witness_RecordedFaultsAreNeverCleared :
    step spoiledRun = .next spoiledRun.extractHazard ∧ Fault.hostHazard 0x008 ∈ spoiledRun.faults := ⟨rfl, by decide⟩

/-- A run whose only line has been run. -/
theorem test_witness_FinishedRunStays :
    let s := State.reset.setHost { HostAgent.idle with prog := [.label 0], pos := 1 }
    s.Inv ∧ s.finished := by
  refine ⟨⟨Memory.wf_nil, ⟨rfl, by decide, by decide⟩, rfl, by decide, by decide, fun f h => ?_, List.Pairwise.nil⟩, ?_⟩
  · cases h
  · exact ⟨by decide, rfl, rfl⟩

/-- The reset line, with nothing in flight and with a command in flight that is not due. -/
theorem test_witness_ResetEvent :
    let s := State.reset.loadHost [.platformReset]
    let u := { issued 1 with delay := 1, host := s.host }
    (¬ (s.status.busy = true ∧ s.delay = 0) ∧ s.host.halted = none ∧ s.host.prog[s.host.pos]? = some .platformReset) ∧
    (¬ (u.status.busy = true ∧ u.delay = 0) ∧ u.host.halted = none ∧ u.host.prog[u.host.pos]? = some .platformReset) := by
  decide

/-- A spoiled command in flight, and its completion step. -/
theorem test_witness_EveryStepKeepsTheInvariant :
    spoiledRun.Inv ∧ step spoiledRun = .next spoiledRun.extractHazard := by
  refine ⟨⟨by decide, ⟨by decide, by decide, by decide⟩, by decide, by decide, fun _ => ⟨0x008, by decide⟩, fun f h => ?_,
    by decide⟩, rfl⟩
  cases h

end Sys2Proof.Tests
end

/-! Free values are new at each use (00_scope.md R14, 10_state.md R38, 20_memory.md R72; log entry 3): no step moves the index
`draws` back, and every granted read moves it past the indices it used. -/

namespace Sys2Proof.Machine

/-! The index over lines, steps and runs. -/

@[simp] theorem tick_draws (s : State) : s.tick.draws = s.draws := by rw [tick_frame]

@[simp] theorem afterAccess_draws (s : State) (r : BusReq) (t : Option Nat) : (s.afterAccess r t).draws = s.draws := by
  rw [afterAccess_frame]

theorem runLine_draws (s : State) (line : HostLine) : s.draws ≤ (s.runLine line).draws := by
  rcases runLine_cases s line with ⟨r, t, e⟩ | ⟨a, n, e, -⟩ | ⟨-, e⟩ <;> rw [e]
  · simpa [State.hostAccess] using busAccess_draws s r
  · simp
  · simp [State.hostReset, State.resetEvent]

theorem step_draws {s t : State} (h : step s = .next t) : s.draws ≤ t.draws := by
  rcases step_cases h with ⟨-, he⟩ | ⟨-, rfl, -⟩ | ⟨-, -, line, -, rfl⟩
  · exact engineStep_draws he
  · simp
  · simpa using runLine_draws s.tick line

/-- A run of one step more is a step and then the rest of the run. -/
theorem run_succ_next {M : Host.Core} {k : Nat} {s u : M.State} (h : M.run (k + 1) s = .next u) :
    ∃ t, M.step s = .next t ∧ M.run k t = .next u := by
  unfold Host.Core.run at h
  split at h
  · exact ⟨_, ‹_›, h⟩
  · cases h
  · cases h

/-- What every step keeps holds at the end of every run that answers a next state. -/
theorem run_keeps {M : Host.Core} {P : M.State → Prop} (hstep : ∀ s t, P s → M.step s = .next t → P t) {k : Nat}
    {s u : M.State} (hs : P s) (h : M.run k s = .next u) : P u := by
  induction k generalizing s with
  | zero => cases h; exact hs
  | succ k ih =>
    obtain ⟨t, hst, hrun⟩ := run_succ_next h
    exact ih (hstep s t hs hst) hrun

theorem run_draws {k : Nat} {s u : State} (h : Host.Core.run Sys2Proof.core k s = .next u) : s.draws ≤ u.draws :=
  run_keeps (M := Sys2Proof.core) (P := fun t : State => s.draws ≤ t.draws)
    (fun _ _ hle hst => hle.trans (step_draws hst)) le_rfl h

/-! The index over the completions that draw. -/

/-- 0 is the code of success alone (R161). -/
theorem ErrorKind.code_ne_zero (e : ErrorKind) : e.code ≠ 0 := by cases e <;> decide

/-- A successful EXTRACT in a clean busy window uses 320 indices, one for each pixel (R113). -/
theorem exec_extract_draws {s t : State} (h : exec .extract s = .next t) (hd : s.dirty = false)
    (he : t.status.errcode = 0) : s.draws + 320 ≤ t.draws := by
  rw [exec_extract, hd] at h
  cases hc : s.extractCheck with
  | some e =>
    rw [hc] at h; cases h
    exact absurd he e.code_ne_zero
  | none =>
    rw [hc] at h; cases h
    simp [State.extractGlyphs_eq]

/-- ENCODE uses 80 indices, one for each byte, also when the busy window was spoiled. -/
theorem exec_encode_draws {s t : State} (h : exec .encode s = .next t) : s.draws + 80 ≤ t.draws := by
  rw [exec_encode] at h
  split_ifs at h <;> cases h
  · simp [State.encodeHazard_eq]
  · simp [State.encodeFrame_eq]

/-- DECODE uses 80 indices, one for each byte, unless it fails (R144). -/
theorem exec_decode_draws {s t : State} (h : exec .decode s = .next t) (he : t.status.errcode = 0) :
    s.draws + 80 ≤ t.draws := by
  rw [exec_decode] at h
  split_ifs at h with hd hl <;> cases h
  · simp [State.decodeHazard_eq]
  · exact absurd he (ErrorKind.code_ne_zero .schemaMismatch)
  · simp [State.decodeGlyphs_eq]

/-! Host reads. -/

/-- A read of a memory under a law is of its bytes (R68). -/
theorem readTarget_mem {s : State} {m : Storage} (hb : s.status.busy = false ∨ m = .pix) (n ofs : Nat) :
    s.readTarget (.mem m n) ofs = s.memRead ofs n := by
  rcases hb with hb | rfl
  · simp [State.readTarget, hb]
  · simp [State.readTarget, Storage.engineWrites]

/-- Byte `j` of a granted read under a law, when unwritten, is the free value with the `j`th index of those the read reserves
(R38, R72). -/
theorem busAccess_read_unwritten {s : State} {r : BusReq} {m : Storage} {n j : Nat} (hw : r.we = false)
    (hc : checkAccess r.addr r.size = .ok (.mem m n)) (hb : s.status.busy = false ∨ m = .pix) (hj : j < n)
    (hu : s.mem.read (r.addr.toNat + j) = none) :
    ∃ v : Word, (s.busAccess r).bus.rdata = some v ∧ v.extractLsb' (8 * j) 8 = Config.freeByte (s.draws + j) := by
  have hj4 : j < 4 := by
    have := checkAccess_storage_size hc
    omega
  refine ⟨s.memRead r.addr.toNat n, ?_, ?_⟩
  · rw [busAccess_read hw hc, ← readTarget_mem hb]
    rfl
  · rw [← byteOf_eq, byteOf_memRead _ _ _ hj4, if_pos hj, State.byteAt, hu, Option.getD_none]

/-- A granted read moves the index past the four it reserves. -/
theorem busAccess_read_draws {s : State} {r : BusReq} {t : Target} (hw : r.we = false)
    (hc : checkAccess r.addr r.size = .ok t) : (s.busAccess r).draws = s.draws + 4 := by
  rw [busAccess_read hw hc]
  rfl

/-- Unwritten bytes of two granted reads, with a run between them, are free values of rising index. -/
theorem reads_apart_use_rising_indices {s u : State} {r q : BusReq} {m m' : Storage} {n n' j j' k : Nat}
    (hrw : r.we = false) (hrc : checkAccess r.addr r.size = .ok (.mem m n)) (hrb : s.status.busy = false ∨ m = .pix)
    (hj : j < n) (hru : s.mem.read (r.addr.toNat + j) = none)
    (hrun : Host.Core.run Sys2Proof.core k (s.busAccess r) = .next u)
    (hqw : q.we = false) (hqc : checkAccess q.addr q.size = .ok (.mem m' n')) (hqb : u.status.busy = false ∨ m' = .pix)
    (hj' : j' < n') (hqu : u.mem.read (q.addr.toNat + j') = none) :
    ∃ (v w : Word) (i i' : Nat), i < i' ∧ (s.busAccess r).bus.rdata = some v ∧ (u.busAccess q).bus.rdata = some w ∧
      v.extractLsb' (8 * j) 8 = Config.freeByte i ∧ w.extractLsb' (8 * j') 8 = Config.freeByte i' := by
  obtain ⟨v, hv, hvi⟩ := busAccess_read_unwritten hrw hrc hrb hj hru
  obtain ⟨w, hw, hwi⟩ := busAccess_read_unwritten hqw hqc hqb hj' hqu
  have hlt : s.draws + j < u.draws + j' := by
    have hsize := checkAccess_storage_size hrc
    have hread := busAccess_read_draws (s := s) hrw hrc
    have hle := run_draws hrun
    omega
  exact ⟨v, w, _, _, hlt, hv, hw, hvi, hwi⟩

/-- Settles O53: the index never falls along a step, hence along a run, and the first read leaves it above each index it used. -/
theorem freeValuesAreNewAtEachUse : Obligations.FreeValuesAreNewAtEachUse := by
  unfold Obligations.FreeValuesAreNewAtEachUse
  refine ⟨fun _ _ => step_draws, fun s k hk => ⟨rfl, by omega⟩, fun s k => ⟨rfl, rfl⟩, fun _ _ => exec_extract_draws,
    fun _ _ => exec_encode_draws, fun _ _ => exec_decode_draws, ?_⟩
  intro s u r q m m' n n' j j' k
  exact reads_apart_use_rising_indices

end Sys2Proof.Machine

/-! The registers and STATUS over the steps (10_state.md): what a completion may write and with which codes, and the invariant
that every step of either agent keeps. -/

namespace Sys2Proof.Machine

/-! The completion step by cases. -/

/-- A LATCH that decodes is run as its command (R35). -/
theorem engineStep_command {s : State} {i : Instr} (h : decodeCmd s.latch = .ok i) : engineStep s = exec i s := by
  rw [engineStep, h]

/-- A completion step ran the command in LATCH, or completed a reserved word. -/
theorem engineStep_cases {s t : State} (h : engineStep s = .next t) :
    (∃ i, decodeCmd s.latch = .ok i ∧ exec i s = .next t) ∨
    ((∃ why, decodeCmd s.latch = .error why) ∧ t = s.completeReserved) := by
  cases hd : decodeCmd s.latch with
  | ok i => exact .inl ⟨i, rfl, engineStep_command hd ▸ h⟩
  | error why =>
    rw [engineStep, hd] at h
    cases h
    exact .inr ⟨⟨why, rfl⟩, rfl⟩

@[simp] theorem completeReserved_mem (s : State) : s.completeReserved.mem = s.mem := by rw [completeReserved_frame]

/-- A reserved word ends in ILLEGAL_COMMAND, spoiled or not (R96, R203). -/
@[simp] theorem completeReserved_errcode (s : State) : s.completeReserved.status.errcode = 6 := by
  cases hd : s.dirty
  · rw [completeReserved_clean hd]
  · rw [completeReserved_spoiled hd]

/-! What a completion leaves: FRM_LEN, HINIB and the memories. -/

/-- FRM_LEN is a result of ENCODE alone (R29, R33). -/
theorem exec_frmLen {i : Instr} {s t : State} (hi : i ≠ .encode) (h : exec i s = .next t) : t.frmLen = s.frmLen := by
  rcases exec_cases h with ⟨-, -, rfl⟩ | ⟨-, -, e, -, rfl⟩ | ⟨-, -, -, rfl⟩ | ⟨rfl, -, -⟩ | ⟨rfl, -, -⟩ | ⟨-, -, rfl⟩ |
    ⟨-, -, -, rfl⟩ | ⟨-, -, -, rfl⟩
  · rw [State.extractHazard_eq]
  · rfl
  · rw [State.extractGlyphs_eq]
  · exact absurd rfl hi
  · exact absurd rfl hi
  · rw [State.decodeHazard_eq]
  · rfl
  · rw [State.decodeGlyphs_eq]

/-- The frame of EXTRACT and DECODE by field: STATUS, the memories and the free-value index (R33). -/
theorem exec_frame_of_not_encode {i : Instr} {s t : State} (hi : i ≠ .encode) (h : exec i s = .next t) :
    t = { s with status := t.status, mem := t.mem, draws := t.draws } := by
  have hframe := exec_frame h
  rwa [exec_frmLen hi h] at hframe

/-- HINIB is a result of DECODE alone, unless a hazardous write spoiled the command (R37, R203). -/
theorem exec_hinib {i : Instr} {s t : State} (hi : i ≠ .decode) (hd : s.dirty = false) (h : exec i s = .next t) :
    t.status.hinib = s.status.hinib := by
  rcases exec_cases h with ⟨-, hs, -⟩ | ⟨-, -, e, -, rfl⟩ | ⟨-, -, -, rfl⟩ | ⟨-, hs, -⟩ | ⟨-, -, rfl⟩ | ⟨rfl, -, -⟩ |
    ⟨rfl, -, -, -⟩ | ⟨rfl, -, -, -⟩
  · rw [hd] at hs; cases hs
  · rfl
  · simp
  · rw [hd] at hs; cases hs
  · simp
  all_goals exact absurd rfl hi

/-- No command stores in PIX (R33). -/
theorem not_storesAt_pix {a : Nat} (ha : 0x800 ≤ a) (i : Instr) : ¬ storesAt i a := by
  cases i <;> simp only [storesAt] <;> omega

/-- No completion stores in PIX, of a command or of a reserved word (R33, R96). -/
theorem engineStep_mem_pix {s t : State} (h : engineStep s = .next t) {a : Nat} (ha : 0x800 ≤ a) :
    t.mem.read a = s.mem.read a := by
  rcases engineStep_cases h with ⟨i, -, he⟩ | ⟨-, rfl⟩
  · exact exec_mem_off he (not_storesAt_pix ha i)
  · rw [completeReserved_mem]

/-- A completion keeps the memories in canonical form. -/
theorem engineStep_wf {s t : State} (h : engineStep s = .next t) (hm : s.mem.wf) : t.mem.wf := by
  rcases engineStep_cases h with ⟨i, -, he⟩ | ⟨-, rfl⟩
  · exact exec_wf he hm
  · rwa [completeReserved_mem]

/-! The codes of a completion (R161). -/

/-- The codes that a command's completion can leave in ERRCODE, success included (R161). -/
def ownCode : Instr → BitVec 4 → Prop
  | .extract, c => c.toNat ≤ 3
  | .encode, c => c = 0
  | .decode, c => c = 0 ∨ c = 4

/-- Two bits, widened, are one of the four codes 0 to 3. -/
theorem toNat_setWidth_two_le (v : Word) : ((v.setWidth 2).setWidth 4).toNat ≤ 3 := by
  simp only [BitVec.toNat_setWidth]
  omega

/-- Every completion of a command leaves one of the command's own codes, spoiled or not (R161, R203). -/
theorem exec_errcode {i : Instr} {s t : State} (h : exec i s = .next t) : ownCode i t.status.errcode := by
  rcases exec_cases h with ⟨rfl, -, rfl⟩ | ⟨rfl, -, e, he, rfl⟩ | ⟨rfl, -, -, rfl⟩ | ⟨rfl, -, rfl⟩ | ⟨rfl, -, rfl⟩ |
    ⟨rfl, -, rfl⟩ | ⟨rfl, -, -, rfl⟩ | ⟨rfl, -, -, rfl⟩
  · simp only [ownCode, State.extractHazard_status, Status.withHinib_errcode, Status.completed_errcode]
    exact toNat_setWidth_two_le _
  · rcases extractCheck_some he with rfl | rfl | rfl <;> simp [ownCode, ErrorKind.code]
  · simp [ownCode]
  · simp [ownCode]
  · simp [ownCode]
  · simp only [ownCode, State.decodeHazard_status, Status.withHinib_errcode, Status.completed_errcode]
    split <;> simp
  · exact .inr rfl
  · simp [ownCode]

/-- The commands' own codes are codes the block produces (R25). -/
theorem legalCode_of_ownCode {i : Instr} {c : BitVec 4} (h : ownCode i c) : legalCode c = true := by
  cases i with
  | extract => exact (by decide : ∀ c : BitVec 4, c.toNat ≤ 3 → legalCode c = true) c h
  | encode => obtain rfl : c = 0 := h; rfl
  | decode => obtain rfl | rfl : c = 0 ∨ c = 4 := h <;> rfl

theorem engineStep_errcode_legal {s t : State} (h : engineStep s = .next t) : legalCode t.status.errcode = true := by
  rcases engineStep_cases h with ⟨i, -, he⟩ | ⟨-, rfl⟩
  · exact legalCode_of_ownCode (exec_errcode he)
  · rw [completeReserved_errcode]
    rfl

/-! The invariant over steps. -/

/-- A completion keeps the invariant: STATUS is legal with BUSY = 0 and a legal code, and HAZARD and the record stay (R25, R35). -/
theorem State.Inv.engineStep {s t : State} (hi : s.Inv) (h : engineStep s = .next t) : t.Inv := by
  obtain ⟨hbusy, -, -, hhazard⟩ := engineStep_status h
  have hlegal : t.status.Legal := ⟨engineStep_errcode_legal h, by simp [hbusy], by simp [hbusy]⟩
  have hmem := engineStep_wf h hi.memory
  rw [engineStep_frame h]
  exact ⟨hmem, hlegal, hi.reserved, fun hd => hhazard.trans (hi.spoiled hd), fun hz => hi.recorded (hhazard.symm.trans hz),
    hi.stopped, hi.temps⟩

/-- The host's reaction to an answer keeps the invariant, bus_err being raised only with the access on record (R66). -/
theorem State.Inv.afterAccess {s : State} (h : s.Inv) {r : BusReq}
    (hrec : s.bus.err = true → Fault.busError r.addr r.size ∈ s.faults) (t : Option Nat) : (s.afterAccess r t).Inv := by
  rw [afterAccess_frame]
  rcases afterAccess_host s r t with ⟨herr, hh⟩ | ⟨-, hh | ⟨k, v, hh⟩⟩ <;> rw [hh]
  · refine h.setHost h.temps fun f hf => ?_
    obtain rfl : Fault.busError r.addr r.size = f := Option.some.inj hf
    exact ⟨hrec herr, _, _, rfl⟩
  · exact h.setHost h.temps h.stopped
  · exact h.setHost (cellsWrite_rising h.temps k v) h.stopped

/-- Every line of the host keeps the invariant. -/
theorem State.Inv.runLine {s : State} (h : s.Inv) (line : HostLine) : (s.runLine line).Inv := by
  rcases runLine_cases s line with ⟨r, t, e⟩ | ⟨a, n, e, htemps, hhalted⟩ | ⟨-, e⟩ <;> rw [e]
  · exact (h.busAccess r).afterAccess (fun herr => (busAccess_err herr).2) t
  · exact (h.setHost (htemps ▸ h.temps) (hhalted ▸ h.stopped)).advance n
  · exact h.resetEvent.setHost h.temps h.stopped

/-- Every step of either agent keeps the invariant. -/
theorem State.Inv.step {s t : State} (hi : s.Inv) (h : step s = .next t) : t.Inv := by
  rcases step_cases h with ⟨-, he⟩ | ⟨-, rfl, -⟩ | ⟨-, -, line, -, rfl⟩
  · exact hi.engineStep he
  · exact hi.tick
  · exact hi.tick.runLine line

/-- Settles O50: a step is the engine's completion, a wait of the host, or one line of the host, and each keeps `State.Inv`. -/
theorem everyStepKeepsTheInvariant : Obligations.EveryStepKeepsTheInvariant := by
  unfold Obligations.EveryStepKeepsTheInvariant
  exact fun _ _ => State.Inv.step

/-- Settles O49: memory and record are empty, and every field that the other clauses speak of is 0. -/
theorem invariantHoldsAtReset : Obligations.InvariantHoldsAtReset := by
  unfold Obligations.InvariantHoldsAtReset
  exact ⟨Memory.wf_nil, ⟨rfl, by decide, by decide⟩, rfl, by decide, by decide, fun _ hf => (nomatch hf), List.Pairwise.nil⟩

/-! The frames and the codes of completions. -/

/-- Settles O12: EXTRACT is not the command that writes FRM_LEN, nor the one that writes HINIB, and it stores in GLY alone. -/
theorem extractWritesOnlyGlyphsAndStatus : Obligations.ExtractWritesOnlyGlyphsAndStatus := by
  unfold Obligations.ExtractWritesOnlyGlyphsAndStatus
  intro s t h
  obtain ⟨-, -, hoverrun, hhazard⟩ := exec_status h
  refine ⟨exec_frame_of_not_encode (by decide) h, hoverrun, hhazard, fun hd => exec_hinib (by decide) hd h, fun a ha => ?_⟩
  have hoff : ¬ storesAt .extract a := by simp only [storesAt]; omega
  exact exec_mem_off h hoff

/-- Settles O24: `exec` always answers a next state, and its ERRCODE is one of the command's `ownCode`s. -/
theorem everyCommandCompletesWithItsOwnCodes : Obligations.EveryCommandCompletesWithItsOwnCodes := by
  unfold Obligations.EveryCommandCompletesWithItsOwnCodes
  intro i s
  obtain ⟨t, h⟩ := exec_next i s
  obtain ⟨hbusy, hdone, hoverrun, hhazard⟩ := exec_status h
  have hcode := exec_errcode h
  refine ⟨t, h, hbusy, hdone, hoverrun, hhazard, ?_, ?_, ?_⟩ <;>
    · rintro rfl
      exact hcode

/-- Settles O27: the frame of the completion step, and PIX outside every command's stored bytes. -/
theorem completionNeverWritesTheImage : Obligations.CompletionNeverWritesTheImage := by
  unfold Obligations.CompletionNeverWritesTheImage
  exact fun s t h => ⟨engineStep_frame h, fun a ha _ => engineStep_mem_pix h ha⟩

/-! Issue and the completion that is due. -/

/-- A 32-bit write of CMD is an issue of the word, whatever the block is doing: it is no hazard (R34, R69). -/
theorem busAccess_writeCmd (s : State) (w : Word) :
    s.busAccess (writeReq .word 0x000 w) = (s.issue w).setBus { rdata := none, err := false } := by
  rw [busAccess_writeReq (t := .reg .cmd) s w rfl rfl, State.hostWrite, noteHazard_of_not (by simp [Target.hazardFree]),
    Width.bytes, lowBytes_four]
  rfl

/-- Settles O5: the access is `State.issue`, which drops the word while BUSY = 1 and latches it else. -/
theorem cmdWriteIssuesOrIsDropped : Obligations.CmdWriteIssuesOrIsDropped := by
  unfold Obligations.CmdWriteIssuesOrIsDropped
  intro s w
  refine ⟨_, rfl, ?_⟩
  rw [busAccess_writeCmd, issue_eq]
  split <;> rfl

/-- With a command in flight and its LATENCY passed, the step is the engine's (R35, R198). -/
theorem step_due {s : State} (hb : s.status.busy = true) (hd : s.delay = 0) : step s = engineStep s := by
  simp [step, State.engineReady, hb, hd]

/-- Settles O7: the due step is the engine's, and the engine runs what LATCH decodes to. -/
theorem stepRunsTheDecodedCommand : Obligations.StepRunsTheDecodedCommand := by
  unfold Obligations.StepRunsTheDecodedCommand
  intro s i hb hd hi _
  rw [step_due hb hd, engineStep_command hi]

/-! STATUS as a word, and the state after reset. -/

/-- The value of a field put above `n` lower bits. -/
theorem toNat_append_add {m n : Nat} (x : BitVec m) (y : BitVec n) : (x ++ y).toNat = x.toNat * 2 ^ n + y.toNat := by
  rw [BitVec.toNat_append, ← Nat.shiftLeft_add_eq_or_of_lt y.isLt, Nat.shiftLeft_eq]

/-- Settles O36: the word is its fields put one above the other, so its value is their sum, each at its place. -/
theorem statusWordLayout : Obligations.StatusWordLayout := by
  unfold Obligations.StatusWordLayout
  intro st
  simp only [Status.word, toNat_append_add, BitVec.toNat_ofBool, BitVec.toNat_ofNat]
  omega

/-- Settles O47: each field of `State.reset` is a literal, and no byte is listed. -/
theorem resetValues : Obligations.ResetValues := by
  unfold Obligations.ResetValues
  exact ⟨by decide, rfl, rfl, rfl, rfl, rfl, rfl, fun _ => rfl⟩

end Sys2Proof.Machine

/-! The bus (20_memory.md): the access check in closed form, what a granted read returns, and what a granted write stores and
answers, idle and busy. -/

namespace Sys2Proof.Machine

/-! The access check (R64, R65). -/

/-- `bus_size` is the logarithm of the width, and 3 is no width (R60). -/
theorem sizeBytes_eq (size : BitVec 2) : sizeBytes size = if size.toNat = 3 then none else some (2 ^ size.toNat) := by
  revert size
  decide

/-- Settles O32: `sizeBytes` in closed form, and then the windows in the order in which `region` tests them. -/
theorem accessCheck : Obligations.AccessCheck := by
  unfold Obligations.AccessCheck
  intro ofs size
  have hword : 2 ^ size.toNat = 4 ↔ size.toNat = 2 := by
    revert size
    decide
  unfold checkAccess
  rw [sizeBytes_eq]
  by_cases hsize : size.toNat = 3
  · simp [hsize]
  by_cases halign : ofs.toNat % 2 ^ size.toNat = 0
  · simp only [hsize, halign, hword, if_false, ne_eq, not_true_eq_false, region]
    split_ifs <;> rfl
  · simp [hsize, halign]

/-- What is known of a granted access to a memory (R64, R65). -/
theorem checkAccess_mem {ofs : BitVec 12} {size : BitVec 2} {m : Storage} {n : Nat} (h : checkAccess ofs size = .ok (.mem m n)) :
    ofs.toNat % n = 0 ∧ region ofs.toNat = .storage m := by
  rcases checkAccess_ok h with ⟨ht, -⟩ | ⟨m', n', ht, -, halign, hregion⟩
  · cases ht
  · cases ht
    exact ⟨halign, hregion⟩

/-- An access granted below 0x018 reaches the register there (R22, R65). -/
theorem checkAccess_reg {ofs : BitVec 12} {size : BitVec 2} {t : Target} (h : checkAccess ofs size = .ok t)
    (hle : ofs.toNat ≤ 0x017) : t = .reg (regAt ofs.toNat) := by
  rcases checkAccess_ok h with ⟨ht, -⟩ | ⟨m, n, -, -, -, hregion⟩
  · exact ht
  · rw [region, if_pos hle] at hregion
    cases hregion

/-- Settles O33: the windows of the memories begin and end at multiples of 4, so aligned bytes that begin in one end in it. -/
theorem grantedAccessStaysInItsMemory : Obligations.GrantedAccessStaysInItsMemory := by
  unfold Obligations.GrantedAccessStaysInItsMemory
  intro ofs size m n h
  obtain ⟨halign, hregion⟩ := checkAccess_mem h
  refine ⟨halign, fun j hj => ?_⟩
  rw [region_storage] at hregion ⊢
  rcases checkAccess_storage_size h with rfl | rfl | rfl <;> cases m <;> simp only at hregion ⊢ <;> omega

/-- Settles O40: an address in the window is the base and 12 bits above it. -/
theorem windowAddressesRoundTrip : Obligations.WindowAddressesRoundTrip := by
  unfold Obligations.WindowAddressesRoundTrip
  refine ⟨Nat.mul_mod_right .., fun ofs => ?_, fun addr ofs h => ?_⟩
  · have hlt := ofs.isLt
    rw [Config.windowOffset, Config.busAddress, if_pos (by omega), Nat.add_sub_cancel_left, BitVec.ofNat_toNat,
      BitVec.setWidth_eq]
  · unfold Config.windowOffset at h
    split_ifs at h with hin
    cases h
    rw [Config.busAddress, BitVec.toNat_ofNat]
    omega

/-! Refused accesses and granted reads (R66, R68). -/

/-- Settles O34: a refused access sets the ports and records the fault. -/
theorem refusedAccessChangesNothing : Obligations.RefusedAccessChangesNothing := by
  unfold Obligations.RefusedAccessChangesNothing
  intro s r e h
  rw [busAccess_refused h, State.refuseAccess]
  refine ⟨?_, fun f => ?_⟩
  · rw [State.recordFault_frame]
    rfl
  · rw [State.mem_recordFault_faults, State.setBus_faults]

/-- The bytes of a little-endian read, each a free value where it is unwritten, and zeros above the width (R38, R61). -/
theorem memRead_byte (s : State) (ofs n : Nat) {j : Nat} (hj : j < 4) :
    (s.memRead ofs n).extractLsb' (8 * j) 8 =
      if j < n then (s.mem.read (ofs + j)).getD (Config.freeByte (s.draws + j)) else 0 := by
  rw [← byteOf_eq, byteOf_memRead s ofs n hj]
  rfl

/-- A memory that the engine may be writing reads as a free value of the width (R68). -/
theorem readTarget_busy {s : State} {m : Storage} (hb : s.status.busy = true) (hm : m ≠ .pix) (n ofs : Nat) :
    s.readTarget (.mem m n) ofs = lowBytes n (Config.freeWord s.draws) := by
  cases m with
  | pix => exact absurd rfl hm
  | gly => simp [State.readTarget, Storage.engineWrites, hb]
  | frm => simp [State.readTarget, Storage.engineWrites, hb]

/-- The answer to a granted read of a memory under a law (R60, R68). -/
theorem busAccess_readMem_bus {s : State} {r : BusReq} {m : Storage} {n : Nat} (hw : r.we = false)
    (hc : checkAccess r.addr r.size = .ok (.mem m n)) (hb : s.status.busy = false ∨ m = .pix) :
    (s.busAccess r).bus = { rdata := some (s.memRead r.addr.toNat n), err := false } := by
  rw [busAccess_read hw hc, ← readTarget_mem hb]
  rfl

/-- Settles O35: the value on the port is `State.readTarget`, of the register at the offset or of the bytes of a memory. -/
theorem hostReadReturns : Obligations.HostReadReturns := by
  unfold Obligations.HostReadReturns
  intro s r t hw hc
  have hreg {ofs : BitVec 12} (hle : ofs.toNat ≤ 0x017) (ha : r.addr = ofs) :
      s.readTarget t r.addr.toNat = s.readReg (regAt ofs.toNat) := by
    subst ha
    rw [checkAccess_reg hc hle]
    rfl
  refine ⟨s.readTarget t r.addr.toNat, ?_, (busAccess_read_draws hw hc).ge, hreg (by decide), hreg (by decide),
    hreg (by decide), hreg (by decide), fun ha => (hreg (by decide) ha).trans (srcFlagsMask_eq _), hreg (by decide), ?_⟩
  · rw [busAccess_read hw hc]
    rfl
  · rintro m n rfl
    split_ifs with hlaw
    · obtain ⟨hb, hm⟩ := hlaw
      rw [readTarget_busy hb hm, lowBytes_toNat (checkAccess_storage_size hc)]
    · have hquiet : s.status.busy = false ∨ m = .pix := by
        rwa [not_and_or, Bool.not_eq_true, not_ne_iff] at hlaw
      rw [readTarget_mem hquiet]
      exact fun j => memRead_byte s r.addr.toNat n

/-! Granted writes (R69). -/

/-- Settles O51: the ports are set last, to bus_err 0 and no data. -/
theorem grantedWriteAnswers : Obligations.GrantedWriteAnswers := by
  unfold Obligations.GrantedWriteAnswers
  intro s r t hw hc
  rw [busAccess_write hw hc]
  rfl

/-- A 32-bit write of a register that is no hazard is the write of the register, and the answer on the ports (R69). -/
theorem busAccess_writeReg {s : State} {ofs : BitVec 12} {q : Reg} (v : Word) (hc : checkAccess ofs 2 = .ok (.reg q))
    (ha : ofs.toNat % 4 = 0) (hn : (s.status.busy && !(Target.reg q).hazardFree) = false) :
    s.busAccess (writeReq .word ofs v) = (s.writeReg q v).setBus { rdata := none, err := false } := by
  rw [busAccess_writeReq s v hc ha, State.hostWrite, noteHazard_of_not hn, Width.bytes, lowBytes_four]
  rfl

/-- Settles O37: a write of STATUS is never a hazard and stores nothing; while idle each other register stores its word. -/
theorem registerWritesStore : Obligations.RegisterWritesStore := by
  unfold Obligations.RegisterWritesStore
  refine ⟨fun s v => busAccess_writeReg (q := .status) v rfl rfl (Bool.and_false _), fun s v hb => ?_⟩
  have hn (q : Reg) : (s.status.busy && !(Target.reg q).hazardFree) = false := by rw [hb, Bool.false_and]
  refine ⟨busAccess_writeReg v rfl rfl (hn .imgW), busAccess_writeReg v rfl rfl (hn .imgH), ?_,
    busAccess_writeReg v rfl rfl (hn .frmLen)⟩
  rw [← srcFlagsMask_eq]
  exact busAccess_writeReg v rfl rfl (hn .srcFlags)

/-- Byte `j` of the low `n` bytes of a word: the word's own, and 0 above the width (R61). -/
theorem byteOf_lowBytes (n : Nat) (v : Word) {j : Nat} (hj : j < 4) :
    byteOf (lowBytes n v) j = if j < n then byteOf v j else 0 := by
  apply BitVec.eq_of_getLsbD_eq
  intro i hi
  have hbit : 8 * j + i < 32 := by omega
  have hwidth : 8 * j + i < 8 * n ↔ j < n := by omega
  by_cases hn : j < n <;> simp [byteOf, hi, lowBytes_getLsbD n v hbit, hwidth, hn]

/-- A little-endian read of the bytes just stored is the value stored, cut to the width (R61). -/
theorem memRead_of_stored {s : State} {ofs n : Nat} {v : Word}
    (h : ∀ j < n, s.mem.read (ofs + j) = some (byteOf v j)) : s.memRead ofs n = lowBytes n v := by
  refine word_ext_bytes fun j hj => ?_
  rw [byteOf_memRead s ofs n hj, byteOf_lowBytes n v hj]
  split_ifs with hn
  · exact byteAt_of_read (h j hn) j
  · rfl

/-- What a granted memory write stores while idle: the bytes of the value at the access's own offsets (R61, R69). -/
theorem busAccess_writeMem {s : State} (hb : s.status.busy = false) {n : Width} {ofs : BitVec 12} {m : Storage} (v : Word)
    (hc : checkAccess ofs n.sizeCode = .ok (.mem m n.bytes)) : s.busAccess (writeReq n ofs v) =
      (s.memWrite ofs.toNat n.bytes (lowBytes n.bytes v)).setBus { rdata := none, err := false } := by
  rw [busAccess_writeReq s v hc (checkAccess_mem hc).1, State.hostWrite, noteHazard_of_not (by simp [hb])]
  rfl

/-- Settles O38: the store fills the access's own bytes, and the read of the same width puts them together again. -/
theorem memoryWriteThenRead : Obligations.MemoryWriteThenRead := by
  unfold Obligations.MemoryWriteThenRead
  intro s n ofs v m hb hc
  have hn4 := checkAccess_storage_size hc
  have hstored : ∀ j < n.bytes,
      (s.memWrite ofs.toNat n.bytes (lowBytes n.bytes v)).mem.read (ofs.toNat + j) = some (byteOf v j) := by
    intro j hj
    rw [State.memWrite, State.setMem_mem, Memory.read_fill_at _ _ _ hj, byteOf_lowBytes _ _ (by omega), if_pos hj]
  refine ⟨_, busAccess_writeMem hb v hc, rfl, fun j hj => byteOf_eq v j ▸ hstored j hj,
    fun a ha => Memory.read_fill_off _ _ _ ha, lowBytes n.bytes v, ?_, lowBytes_toNat hn4 v⟩
  refine (busAccess_readMem_bus (r := readReq n ofs) rfl hc (.inl ?_)).trans ?_
  · exact hb
  · rw [memRead_of_stored]
    exact hstored

/-! Writes other than to CMD (R69, R70): they neither read nor write STATUS, the mark of a spoiled window, the ports or the
record of faults, so noting the hazard first changes nothing of what they store. -/

section
variable {t : Target} (ht : t ≠ .reg .cmd) (s : State) (ofs : Nat) (v : Word)
include ht

/-- Such a write does the same whatever STATUS, the mark, the ports and the record are. -/
theorem writeTarget_comm (st : Status) (d : Bool) (b : BusResp) (fs : List Fault) :
    ({ s with status := st, dirty := d, bus := b, faults := fs } : State).writeTarget t ofs v =
      { s.writeTarget t ofs v with status := st, dirty := d, bus := b, faults := fs } := by
  rcases t with r | ⟨m, n⟩
  · cases r
    case cmd => exact absurd rfl ht
    all_goals rfl
  · rfl

theorem writeTarget_keeps : (s.writeTarget t ofs v).status = s.status ∧ (s.writeTarget t ofs v).dirty = s.dirty ∧
    (s.writeTarget t ofs v).faults = s.faults := by
  have h : s.writeTarget t ofs v =
      { s.writeTarget t ofs v with status := s.status, dirty := s.dirty, bus := s.bus, faults := s.faults } :=
    writeTarget_comm ht s ofs v s.status s.dirty s.bus s.faults
  rw [h]
  exact ⟨rfl, rfl, rfl⟩

theorem writeTarget_setBus (b : BusResp) : (s.setBus b).writeTarget t ofs v = (s.writeTarget t ofs v).setBus b := by
  obtain ⟨hst, hd, hf⟩ := writeTarget_keeps ht s ofs v
  have h : (s.setBus b).writeTarget t ofs v =
      { s.writeTarget t ofs v with status := s.status, dirty := s.dirty, bus := b, faults := s.faults } :=
    writeTarget_comm ht s ofs v s.status s.dirty b s.faults
  rw [h, ← hst, ← hd, ← hf]
  rfl

/-- Such a write made twice is the write made once. -/
theorem writeTarget_again : (s.writeTarget t ofs v).writeTarget t ofs v = s.writeTarget t ofs v := by
  rcases t with r | ⟨m, n⟩
  · cases r
    case cmd => exact absurd rfl ht
    all_goals rfl
  · exact congrArg s.setMem (cellsFill_again s.mem ofs (byteOf v) n)

end

/-- What a hazardous write notes: HAZARD, the spoiled window and the fault (R69, R203). -/
theorem noteHazard_hazardous {s : State} {t : Target} (h : (s.status.busy && !t.hazardFree) = true) (ofs : BitVec 12) :
    s.noteHazard t ofs = { s with status := { s.status with hazard := true }, dirty := true,
                                  faults := (s.noteHazard t ofs).faults } ∧
    ∀ f, f ∈ (s.noteHazard t ofs).faults ↔ f = .hostHazard ofs ∨ f ∈ s.faults := by
  rw [noteHazard_of h]
  refine ⟨?_, fun f => by simp⟩
  rw [State.recordFault_frame]
  rfl

/-- Settles O28: the hazard is noted first, and the write that follows is the idle one, since it does not read what was noted. -/
theorem writeWhileBusyIsAHazard : Obligations.WriteWhileBusyIsAHazard := by
  unfold Obligations.WriteWhileBusyIsAHazard
  intro s r t hb hw hc hcmd hstatus
  have ht : t ≠ .reg .cmd := fun h => hcmd ((target_cmd_iff hc).mp h)
  have hfree : t.hazardFree = false := by
    rw [Bool.eq_false_iff, ne_eq, hazardFree_iff hc]
    exact not_or.mpr ⟨hcmd, hstatus⟩
  obtain ⟨hnote, hfaults⟩ := noteHazard_hazardous (s := s) (t := t) (by simp [hb, hfree]) r.addr
  have hrecord : (s.busAccess r).faults = (s.noteHazard t r.addr).faults := by
    rw [busAccess_write hw hc]
    exact writeTarget_faults _ _ _ _
  refine ⟨?_, fun f => hrecord ▸ hfaults f⟩
  rw [hrecord, busAccess_write hw hc, busAccess_write hw hc]
  simp only [State.grantWrite, State.hostWrite]
  rw [noteHazard_of_not (s := { s with status := { s.status with busy := false } }) rfl,
    hnote, writeTarget_comm ht s r.addr.toNat (busValue r) { s.status with hazard := true } true s.bus,
    writeTarget_comm ht s r.addr.toNat (busValue r) { s.status with busy := false } s.dirty s.bus s.faults]
  rfl

/-- A hazard already noted is noted no further: HAZARD is set, the window spoiled and the fault on record. -/
theorem noteHazard_of_noted {s : State} {t : Target} {ofs : BitVec 12} (hz : s.status.hazard = true) (hd : s.dirty = true)
    (hf : .hostHazard ofs ∈ s.faults) : s.noteHazard t ofs = s := by
  have hstatus : s.status.hazardSet = s.status := by
    rw [Status.hazardSet, ← hz]
  have hdirty : s.setDirty true = s := by
    rw [← hd]
    rfl
  unfold State.noteHazard
  split
  · rw [hstatus]
    change (s.setDirty true).recordFault _ = s
    rw [hdirty, State.recordFault_of_mem s _ hf]
  · rfl

/-- Noting the same hazard again changes nothing, in any state that still holds what was noted. -/
theorem noteHazard_again {s u : State} {t : Target} {ofs : BitVec 12} (hst : u.status = (s.noteHazard t ofs).status)
    (hd : u.dirty = (s.noteHazard t ofs).dirty) (hf : u.faults = (s.noteHazard t ofs).faults) :
    u.noteHazard t ofs = u := by
  by_cases hc : (s.status.busy && !t.hazardFree) = true
  · obtain ⟨hnote, hfaults⟩ := noteHazard_hazardous hc ofs
    refine noteHazard_of_noted ?_ ?_ (hf ▸ (hfaults _).mpr (.inl rfl))
    · rw [hst, hnote]
    · rw [hd, hnote]
  · refine noteHazard_of_not ?_ ofs
    rw [hst, noteHazard_busy]
    exact Bool.eq_false_iff.mpr hc

/-- A granted write other than to CMD, made twice, is the write made once, HAZARD included (R70). -/
theorem grantWrite_again {t : Target} (ht : t ≠ .reg .cmd) (s : State) (r : BusReq) :
    (s.grantWrite t r).grantWrite t r = s.grantWrite t r := by
  obtain ⟨hst, hd, hf⟩ := writeTarget_keeps ht (s.noteHazard t r.addr) r.addr.toNat (busValue r)
  have hnote : (s.grantWrite t r).noteHazard t r.addr = s.grantWrite t r := noteHazard_again hst hd hf
  have hwrite : (s.grantWrite t r).writeTarget t r.addr.toNat (busValue r) = s.grantWrite t r := by
    rw [State.grantWrite, writeTarget_setBus ht, State.hostWrite, writeTarget_again ht]
  rw [State.grantWrite, State.hostWrite, hnote, hwrite]
  rfl

/-- Settles O39: a read moves the ports and the index alone, a write other than to CMD stores the same again, and the second
command word meets a busy block. -/
theorem onlyCmdWritesHaveSideEffects : Obligations.OnlyCmdWritesHaveSideEffects := by
  unfold Obligations.OnlyCmdWritesHaveSideEffects
  refine ⟨fun s r t hw hc => ?_, fun s r t hw hc hcmd => ?_, fun s w hb => ⟨_, busAccess_writeCmd s w, ?_, ?_, ?_⟩⟩
  · rw [busAccess_read hw hc]
    rfl
  · have ht : t ≠ .reg .cmd := fun h => hcmd ((target_cmd_iff hc).mp h)
    rw [busAccess_write hw hc, busAccess_write hw hc, grantWrite_again ht]
  · simp [issue_eq, hb]
  · simp [issue_eq, hb]
  · rw [busAccess_writeCmd, issue_busy (by simp [issue_eq, hb])]
    rfl

/-! The host at the bus: its lines while no completion is due, where it stops, and the record of faults (R66, R73). -/

/-- With no completion due, the step is the host's, one step of LATENCY having passed (R73, R198). -/
theorem step_not_due {s : State} (h : ¬ (s.status.busy = true ∧ s.delay = 0)) : step s = hostStep s.tick := by
  have hready : ¬ s.engineReady = true := by simpa [State.engineReady] using h
  rw [step, if_neg hready]

/-- Settles O8: the step is the host's, on the state that `State.tick` leaves. -/
theorem hostLineRunsUntilCompletionIsDue : Obligations.HostLineRunsUntilCompletionIsDue := by
  unfold Obligations.HostLineRunsUntilCompletionIsDue
  intro s line hdue hrun hline
  rw [step_not_due hdue, hostStep, tick_host, hrun]
  simp only [hline]
  rfl

/-- A host stopped at a refused access ends the run once the block is idle (R66, log entry 7). -/
theorem step_fault_iff (s : State) (f : Fault) : step s = .fault f ↔ s.host.halted = some f ∧ s.status.busy = false := by
  refine ⟨step_fault, fun ⟨hh, hb⟩ => ?_⟩
  rw [step_not_due (by simp [hb]), hostStep, tick_host, tick_status, hh]
  simp [hb]

/-- A line that stops the host, or changes where it has stopped, presented an access that is refused (R66). -/
theorem runLine_stops {s : State} {line : HostLine} (h : (s.runLine line).host.halted ≠ s.host.halted) :
    ∃ r e, line.request = some r ∧ checkAccess r.addr r.size = .error e ∧
      (s.runLine line).host.halted = some (.busError r.addr r.size) := by
  cases hr : line.request with
  | none => exact absurd (runLine_noAccess hr s) h
  | some r =>
    obtain ⟨t, hline, -⟩ := runLine_access hr s
    rw [hline] at h ⊢
    cases hc : checkAccess r.addr r.size with
    | error e => exact ⟨r, e, rfl, hc, by rw [hostAccess_refused hc]; rfl⟩
    | ok q =>
      rw [hostAccess_granted hc] at h
      exact absurd (by simp only [State.setHost_host]; split <;> rfl) h

/-- Settles O44: of the three kinds of step only a line of the host changes where the host has stopped, and a stopped host
ends the run, which `State.Inv` says it did at a recorded refused access. -/
theorem stepStopsOnlyAtARefusedAccess : Obligations.StepStopsOnlyAtARefusedAccess := by
  unfold Obligations.StepStopsOnlyAtARefusedAccess
  refine ⟨step_fault_iff, step_not_refused, fun s r t e hc => ?_, fun s t hstep hne => ?_,
    fun s f hinv hfault => hinv.stopped f (step_fault hfault).1⟩
  · rw [hostAccess_refused hc]
    rfl
  · rcases step_cases hstep with ⟨-, hengine⟩ | ⟨-, rfl, -⟩ | ⟨-, -, line, hline, rfl⟩
    · exact absurd (by rw [engineStep_frame hengine]) hne
    · exact absurd (by rw [tick_host]) hne
    · obtain ⟨r, e, hrequest, hcheck, hhalted⟩ := runLine_stops (s := s.tick) (by rwa [tick_host])
      exact ⟨line, r, e, hline, hrequest, hcheck, hhalted⟩

/-- No line of the host clears a recorded fault, the platform's reset included (R66, R203; log entry 14). -/
theorem runLine_faults {s : State} {f : Fault} (hf : f ∈ s.faults) (line : HostLine) : f ∈ (s.runLine line).faults := by
  rcases runLine_cases s line with ⟨r, t, e⟩ | ⟨a, n, e, -⟩ | ⟨-, e⟩ <;> rw [e]
  · rw [State.hostAccess, afterAccess_faults]
    exact busAccess_faults hf r
  · exact hf
  · exact hf

/-- Settles O45: a completion and a wait leave the record alone, and a line of the host only adds to it. -/
theorem recordedFaultsAreNeverCleared : Obligations.RecordedFaultsAreNeverCleared := by
  unfold Obligations.RecordedFaultsAreNeverCleared
  intro s t f hstep hf
  rcases step_cases hstep with ⟨-, hengine⟩ | ⟨-, rfl, -⟩ | ⟨-, -, line, -, rfl⟩
  · rwa [engineStep_frame hengine]
  · rwa [tick_faults]
  · exact runLine_faults (by rwa [tick_faults]) line

end Sys2Proof.Machine

/-! The encoding (30_encoding.md): which words and bytes are commands, the classes of the reserved words and how they end, the
port values of a host line, and what each line does to the host. -/

namespace Sys2Proof.Machine

/-! Command words and their bytes (R90-R95). -/

/-- Bytes decode to a command exactly if they begin with the command's own four (R61, R91, R93). -/
theorem decodeBytes_ok_iff {bytes rest : List Byte} {i : Instr} :
    decodeBytes bytes = .ok (i, rest) ↔ bytes = encodeBytes i ++ rest := by
  constructor
  · intro h
    match bytes, h with
    | b0 :: b1 :: b2 :: b3 :: tail, h =>
      rw [decodeBytes_cons] at h
      split at h
      case h_1 j hword =>
        cases h
        rw [encodeBytes, ← (decodeCmd_ok_iff _ _).mp hword, wordBytes_wordOfBytes]
        rfl
      case h_2 => cases h
  · rintro rfl
    simp [encodeBytes, wordBytes, decodeBytes_cons, wordOfBytes_wordBytes, decodeCmd_encode]

/-- Settles O4: both directions of `decodeBytes_ok_iff`. -/
theorem commandBytesRoundTrip : Obligations.CommandBytesRoundTrip := by
  unfold Obligations.CommandBytesRoundTrip
  exact ⟨fun _ _ _ => decodeBytes_ok_iff.mpr rfl, fun _ _ _ => decodeBytes_ok_iff.mp⟩

/-- The decoder compares all 32 bits of the word (R93). -/
theorem decodeCmd_ok_iff_toNat (w : Word) (i : Instr) : decodeCmd w = .ok i ↔ w.toNat = (encode i).toNat := by
  rw [decodeCmd_ok_iff, BitVec.toNat_inj]

/-- The command words are 1, 2 and 3 (R91). -/
theorem isCommand_iff (w : Word) : (∃ i, w = encode i) ↔ w.toNat = 1 ∨ w.toNat = 2 ∨ w.toNat = 3 := by
  simp only [← BitVec.toNat_inj]
  constructor
  · rintro ⟨i, hi⟩
    cases i with
    | extract => exact .inl hi
    | encode => exact .inr (.inl hi)
    | decode => exact .inr (.inr hi)
  · rintro (h | h | h)
    · exact ⟨.extract, h⟩
    · exact ⟨.encode, h⟩
    · exact ⟨.decode, h⟩

/-- Every word that is no command's is reserved, in the class its fields give (R93, R95). -/
theorem decodeCmd_reserved {w : Word} (h : ¬ ∃ i, w = encode i) : decodeCmd w = .error (reservedClass w) := by
  have hno (i : Instr) : w ≠ encode i := fun e => h ⟨i, e⟩
  exact (if_neg (hno .extract)).trans ((if_neg (hno .encode)).trans (if_neg (hno .decode)))

/-- A word decodes to an error exactly if it is no command's (R93). -/
theorem decodeCmd_error_iff (w : Word) : (∃ why, decodeCmd w = .error why) ↔ ¬ ∃ i, w = encode i := by
  refine ⟨?_, fun h => ⟨_, decodeCmd_reserved h⟩⟩
  rintro ⟨why, hwhy⟩ ⟨i, rfl⟩
  rw [decodeCmd_encode] at hwhy
  cases hwhy

/-- Settles O2: the three commands by their words, and an error for every word that is none of them. -/
theorem decoderMatchesTheWholeWord : Obligations.DecoderMatchesTheWholeWord := by
  unfold Obligations.DecoderMatchesTheWholeWord
  refine fun w => ⟨decodeCmd_ok_iff_toNat w _, decodeCmd_ok_iff_toNat w _, decodeCmd_ok_iff_toNat w _, ?_⟩
  rw [decodeCmd_error_iff, isCommand_iff]
  omega

/-! Reserved words (R95, R96). -/

/-- RSV is the word without its low byte (R90). -/
theorem rsvField_eq_zero_iff (w : Word) : rsvField w = 0 ↔ w.toNat / 256 = 0 := by
  have hlt := w.isLt
  rw [← BitVec.toNat_inj, rsvField, BitVec.extractLsb'_toNat, Nat.shiftRight_eq_div_pow]
  change w.toNat / 256 % 2 ^ 24 = 0 ↔ _
  omega

/-- OP is the word's low byte (R90). -/
theorem opField_eq_zero_iff (w : Word) : opField w = 0 ↔ w.toNat % 256 = 0 := by
  rw [← BitVec.toNat_inj, opField, BitVec.extractLsb'_toNat]
  rfl

/-- A word with RSV not zero is reserved whatever its OP (R95). -/
theorem decodeCmd_rsvNotZero {w : Word} (h : w.toNat / 256 ≠ 0) : decodeCmd w = .error .rsvNotZero := by
  have hno : ¬ ∃ i, w = encode i := by
    rw [isCommand_iff]
    omega
  have hrsv : rsvField w ≠ 0 := mt (rsvField_eq_zero_iff w).mp h
  rw [decodeCmd_reserved hno, reservedClass, if_pos hrsv]

/-- A word with RSV = 0 and an OP of 4 or more is reserved (R95). -/
theorem decodeCmd_opUnassigned {w : Word} (h4 : 4 ≤ w.toNat) (h255 : w.toNat ≤ 255) :
    decodeCmd w = .error .opUnassigned := by
  have hno : ¬ ∃ i, w = encode i := by
    rw [isCommand_iff]
    omega
  have hrsv : rsvField w = 0 := (rsvField_eq_zero_iff w).mpr (by omega)
  have hop : opField w ≠ 0 := mt (opField_eq_zero_iff w).mp (by omega)
  rw [decodeCmd_reserved hno, reservedClass, if_neg (not_not.mpr hrsv), if_neg hop]

/-- The completion step of a reserved word does not depend on the word (R95). -/
theorem engineStep_reserved {s : State} {why : ReservedWord} (h : decodeCmd s.latch = .error why) :
    engineStep s = .next s.completeReserved := by
  rw [engineStep, h]

/-- Settles O3: the class is read off the fields, and the completion step looks at neither. -/
theorem reservedWordsByClass : Obligations.ReservedWordsByClass := by
  unfold Obligations.ReservedWordsByClass
  exact ⟨fun _ => decodeCmd_rsvNotZero, rfl, fun _ => decodeCmd_opUnassigned, fun _ _ => engineStep_reserved⟩

/-- Settles O10: a word other than the three commands' is reserved, and its clean completion raises ILLEGAL_COMMAND. -/
theorem reservedWordCompletesIllegal : Obligations.ReservedWordCompletesIllegal := by
  unfold Obligations.ReservedWordCompletesIllegal
  intro s hbusy hdelay h1 h2 h3 hclean
  have hno : ¬ ∃ i, s.latch = encode i := by
    rintro ⟨i, hi⟩
    cases i with
    | extract => exact h1 hi
    | encode => exact h2 hi
    | decode => exact h3 hi
  rw [step_due hbusy hdelay, engineStep_reserved (decodeCmd_reserved hno), completeReserved_clean hclean]

/-- Settles O1: the rows of the opcode table and one word of each shape of reserved word, run through the decoder. -/
theorem commandWordsDecode : Obligations.CommandWordsDecode := by
  unfold Obligations.CommandWordsDecode
  decide

/-! The port values of a host line (R60, R98). -/

/-- `bus_size` is the logarithm of the width (R60). -/
theorem two_pow_sizeCode (n : Width) : 2 ^ n.sizeCode.toNat = n.bytes := by cases n <;> rfl

/-- A width's `bus_size` gives the width back to the access check (R60, R65). -/
theorem sizeBytes_sizeCode (n : Width) : sizeBytes n.sizeCode = some n.bytes := by cases n <;> rfl

/-- The three widths of an access (R98). -/
theorem width_bytes_cases (n : Width) : n.bytes = 1 ∨ n.bytes = 2 ∨ n.bytes = 4 := by cases n <;> simp [Width.bytes]

/-- The low bytes of a value, moved up to lane `ofs mod 4`, as a number, while they stay in the four lanes (R98). -/
theorem lowBytes_shiftLeft_toNat {n : Nat} (hn : n = 1 ∨ n = 2 ∨ n = 4) (v : Word) {ofs : BitVec 12}
    (hfit : ofs.toNat % 4 + n ≤ 4) :
    (lowBytes n v <<< laneShift ofs).toNat = v.toNat % 256 ^ n * 256 ^ (ofs.toNat % 4) := by
  have hlanes : v.toNat % 256 ^ n * 256 ^ (ofs.toNat % 4) < 2 ^ 32 := calc
    _ < 256 ^ n * 256 ^ (ofs.toNat % 4) := by gcongr; exact Nat.mod_lt _ (by positivity)
    _ = 256 ^ (ofs.toNat % 4 + n) := by rw [pow_add, mul_comm]
    _ ≤ 256 ^ 4 := Nat.pow_le_pow_right (by decide) hfit
  rw [BitVec.toNat_shiftLeft, lowBytes_toNat hn, Nat.shiftLeft_eq, laneShift, Nat.pow_mul]
  exact Nat.mod_eq_of_lt hlanes

/-- Settles O41: the lanes as numbers, and the value that comes back from them to the block. -/
theorem hostLinePorts : Obligations.HostLinePorts := by
  unfold Obligations.HostLinePorts
  refine fun ofs v => ⟨fun n => ⟨rfl, rfl, two_pow_sizeCode n, rfl, rfl, two_pow_sizeCode n⟩, ?_, fun h3 => ?_, rfl,
    fun n halign => ?_⟩
  · exact lowBytes_shiftLeft_toNat (.inl rfl) v (by omega)
  · exact lowBytes_shiftLeft_toNat (.inr (.inl rfl)) v (by omega)
  · rw [busValue_writeReq n ofs v halign, lowBytes_toNat (width_bytes_cases n)]

/-! The lines of the host (R98, R99). -/

/-- Settles O42: the label's place is where it first stands, and BNE writes the host's position and the index alone. -/
theorem hostBranches : Obligations.HostBranches := by
  unfold Obligations.HostBranches
  intro s t mask v l p hlabel hfirst
  rw [State.runLine, State.hostBranch, labelPos_first hlabel hfirst]
  split_ifs <;> rfl

/-- The low bytes of the low bytes are the low bytes. -/
theorem lowBytes_lowBytes (n : Nat) (v : Word) : lowBytes n (lowBytes n v) = lowBytes n v := by
  apply BitVec.eq_of_getLsbD_eq
  intro i hi
  simp [lowBytes_getLsbD n _ hi]

/-- A little-endian read has no bit above its width (R61). -/
theorem lowBytes_memRead (s : State) (ofs n : Nat) : lowBytes n (s.memRead ofs n) = s.memRead ofs n := by
  apply BitVec.eq_of_getLsbD_eq
  intro i hi
  simp [lowBytes_getLsbD n _ hi, memRead_getLsbD s ofs n i hi]

/-- The value of a granted read has no bit above the width of the access (R60, R68). -/
theorem lowBytes_readTarget (s : State) {n : Width} {ofs : BitVec 12} {q : Target} (h : checkAccess ofs n.sizeCode = .ok q) :
    lowBytes n.bytes (s.readTarget q ofs.toNat) = s.readTarget q ofs.toNat := by
  rcases checkAccess_ok h with ⟨-, hsize, -⟩ | ⟨m, k, rfl, hsize, -⟩
  · have hword : n.bytes = 4 := by rw [← two_pow_sizeCode, hsize]; rfl
    rw [hword, lowBytes_four]
  · obtain rfl : n.bytes = k := Option.some.inj ((sizeBytes_sizeCode n).symm.trans hsize)
    simp only [State.readTarget]
    split_ifs
    · exact lowBytes_lowBytes _ _
    · exact lowBytes_memRead _ _ _

/-- A granted line that names no temporary does the access and moves the host on (R98). -/
theorem hostAccess_none {s : State} {r : BusReq} {q : Target} (h : checkAccess r.addr r.size = .ok q) :
    s.hostAccess r none = (s.busAccess r).setHost s.host.next := hostAccess_granted h none

/-- The answer to a granted read line: the value read (R60, R68). -/
theorem busAccess_readReq_rdata {s : State} {n : Width} {ofs : BitVec 12} {q : Target}
    (h : checkAccess ofs n.sizeCode = .ok q) :
    (s.busAccess (readReq n ofs)).bus.rdata = some (s.readTarget q ofs.toNat) := by
  rw [busAccess_read (r := readReq n ofs) rfl h]
  rfl

/-- A granted read line does the access, puts the value read into its temporary and moves the host on (R98). -/
theorem runLine_read {s : State} {n : Width} {ofs : BitVec 12} {q : Target} (h : checkAccess ofs n.sizeCode = .ok q) (t : Nat) :
    s.runLine (.read n ofs t) = (s.busAccess (readReq n ofs)).setHost
      { s.host.next with temps := cellsWrite s.host.temps t (s.readTarget q ofs.toNat) } := by
  rw [State.runLine, hostAccess_granted (r := readReq n ofs) h, busAccess_readReq_rdata h]

/-- Settles O43: the value is the one on the port, and `runLine_read` says where it goes. -/
theorem hostReadsIntoItsTemporary : Obligations.HostReadsIntoItsTemporary := by
  unfold Obligations.HostReadsIntoItsTemporary
  intro s n ofs t q h
  refine ⟨s.readTarget q ofs.toNat, busAccess_readReq_rdata h, ?_, ?_, fun k hk => ?_, ?_, ?_⟩
  · rw [runLine_read h]
    rfl
  · simp [runLine_read h, State.temp]
  · simp [runLine_read h, hk]
  · rw [← lowBytes_readTarget s h, lowBytes_toNat (width_bytes_cases n)]
    exact Nat.mod_lt _ (by positivity)
  · rw [runLine_read h, State.setHost_draws, busAccess_read_draws (r := readReq n ofs) rfl h]

/-- Settles O52: a granted line without a temporary, and the two lines that are no bus access. -/
theorem hostLinesGoOn : Obligations.HostLinesGoOn := by
  unfold Obligations.HostLinesGoOn
  refine ⟨fun s n ofs v q h => hostAccess_none (r := writeReq n ofs v) h, fun s r q h => hostAccess_none h, fun s l => rfl,
    fun s t v => ⟨_, rfl, Nat.lt_succ_self _, ?_⟩⟩
  have hfailed : (s.temp t != v) = decide (s.temp t ≠ v) := by simp [bne, beq_eq_decide]
  rw [State.runLine, State.hostCheck, hfailed]
  rfl

end Sys2Proof.Machine

/-! EXTRACT (40_extract.md): the demultiplexer, the bit each red byte decides, and the command's outcomes by its checks. -/

namespace Sys2Proof.Machine

/-! The demultiplexer (R112-R114). -/

/-- Every triple's index is that of a red byte of PIX (R113). -/
theorem pixIndex_bounds {i r c : Nat} (hi : i < 16) (hr : r < 5) (hc : c < 4) :
    pixIndex i r c ≤ 1276 ∧ pixIndex i r c % 4 = 0 := by
  rw [pixIndex_eq]
  omega

/-- No two triples share a red byte (R114). A glyph's place in the grid need not be bounded for this. -/
theorem pixIndex_inj {i r c i' r' c' : Nat} (hr : r < 5) (hc : c < 4) (hr' : r' < 5) (hc' : c' < 4)
    (h : pixIndex i r c = pixIndex i' r' c') : i = i' ∧ r = r' ∧ c = c' := by
  rw [pixIndex_eq, pixIndex_eq] at h
  omega

/-- The index of a pixel's triple is the pixel's own (R114). -/
theorem pixIndex_of_pixel {x : Nat} (hx : x < 16) (y : Nat) :
    pixIndex (glyphOf x y) (rowOf y) (colOf x) = (y * 16 + x) * 4 := by
  simp only [pixIndex_eq, glyphOf, rowOf, colOf, Config.cellH, Config.cellW, Config.gridCols]
  omega

/-- The triple of a pixel is in range (R114). -/
theorem triple_of_pixel_bounds {x y : Nat} (hx : x < 16) (hy : y < 20) :
    glyphOf x y < 16 ∧ rowOf y < 5 ∧ colOf x < 4 := by
  simp only [glyphOf, rowOf, colOf, Config.cellH, Config.cellW, Config.gridCols]
  omega

/-- Settles O15: `pixIndex` takes each pixel's triple to the pixel, and is injective on triples. -/
theorem demultiplexerIsABijection : Obligations.DemultiplexerIsABijection := by
  unfold Obligations.DemultiplexerIsABijection
  refine ⟨fun x hx y hy => ?_, fun i hi r hr c hc => ?_⟩
  · obtain ⟨hglyph, hrow, hcol⟩ := triple_of_pixel_bounds hx hy
    exact ⟨hglyph, hrow, hcol, rfl, pixIndex_of_pixel hx y⟩
  · obtain ⟨hle, hmod⟩ := pixIndex_bounds hi hr hc
    exact ⟨hle, hmod, fun i' _ r' hr' c' hc' => pixIndex_inj hr hc hr' hc'⟩

/-! The bit-packer (R115-R117). -/

/-- A byte is ink exactly if its top bit is clear (R115). -/
theorem ink_eq_not_bit7 (v : Byte) : ink v = !v.getLsbD 7 := by
  have hbit : v.getLsbD 7 = decide (128 ≤ v.toNat) :=
    (BitVec.msb_eq_getLsbD_last v).symm.trans (BitVec.msb_eq_decide v)
  simp only [ink_eq, hbit, ← decide_not, Nat.not_le]

/-- Settles O16: the threshold is the weight of bit 7. -/
theorem inkIsBelow128 : Obligations.InkIsBelow128 := by
  unfold Obligations.InkIsBelow128
  exact ⟨fun v => ⟨ink_eq v, ink_eq_not_bit7 v⟩, rfl, rfl⟩

/-- A bit of a row byte sees the one red byte of its column, and bits 7:4 see none (R116). -/
theorem rowByte_bit_congr {p q : Nat → Byte} {i r j : Nat}
    (h : j < 4 → p (pixIndex i r (3 - j)) = q (pixIndex i r (3 - j))) :
    (rowByte p i r).getLsbD j = (rowByte q i r).getLsbD j := by
  by_cases hj : j < 4
  · obtain ⟨c, hc, rfl⟩ : ∃ c < 4, j = 3 - c := ⟨3 - j, by omega, by omega⟩
    have hcol : 3 - (3 - c) = c := by omega
    rw [hcol] at h
    rw [rowByte_column p i r hc, rowByte_column q i r hc, h hj]
  · rw [rowByte_high p i r (not_lt.mp hj), rowByte_high q i r (not_lt.mp hj)]

/-- Byte `k` of the collection is row `k mod 5` of glyph `k div 5` (R117), and its bits see what the row byte's do. -/
theorem extractFn_bit_congr {p q : Nat → Byte} {k j : Nat}
    (h : j < 4 → p (pixIndex (k / 5) (k % 5) (3 - j)) = q (pixIndex (k / 5) (k % 5) (3 - j))) :
    (extractFn p k).getLsbD j = (extractFn q k).getLsbD j := rowByte_bit_congr h

/-- The extracted bytes see the red bytes alone (R120). -/
theorem extractFn_congr {p q : Nat → Byte} (h : ∀ n < 320, p (4 * n) = q (4 * n)) {k : Nat} (hk : k < 80) :
    extractFn p k = extractFn q k := by
  refine BitVec.eq_of_getLsbD_eq fun j _ => extractFn_bit_congr fun hj => ?_
  obtain ⟨hle, hmod⟩ := pixIndex_bounds (i := k / 5) (r := k % 5) (c := 3 - j) (by omega) (by omega) (by omega)
  obtain ⟨n, hn⟩ := Nat.dvd_of_mod_eq_zero hmod
  have hred := h n (by omega)
  rwa [← hn] at hred

/-- An extracted byte is at most 0x0F (R116, R121). -/
theorem extractFn_le (p : Nat → Byte) (k : Nat) : (extractFn p k).toNat ≤ 0x0F :=
  le_nibble_of_high _ fun _ => rowByte_high p _ _

/-! PIX as EXTRACT reads it. -/

/-- A byte of PIX is its stored value or the free value of its pixel's index (R38, R113). -/
theorem pixByte_congr {s u : State} {k : Nat} (hd : s.draws = u.draws)
    (hm : s.mem.read (0x800 + k) = u.mem.read (0x800 + k)) : s.pixByte k = u.pixByte k := by
  simp only [State.pixByte, State.byteAt, pixBase, hd, hm]

/-- PIX after a byte of it is stored. -/
theorem pixByte_write (s : State) (k : Nat) (v : Byte) (n : Nat) :
    ({ s with mem := s.mem.write (0x800 + k) v } : State).pixByte n = if n = k then v else s.pixByte n := by
  split_ifs with h
  · subst h
    exact byteAt_of_read (by simp [pixBase]) _
  · exact pixByte_congr rfl (by simp [h])

/-! The command by its checks (R118). -/

/-- A check that fails ends EXTRACT with its code (R118). -/
theorem exec_extract_error {s : State} {e : ErrorKind} (hd : s.dirty = false) (hc : s.extractCheck = some e) :
    exec .extract s = .next (s.raise e) := by
  simp only [exec_extract, hd, hc, Bool.false_eq_true, if_false]

/-- With all checks passed EXTRACT writes the glyphs (R118). -/
theorem exec_extract_success {s : State} (hd : s.dirty = false) (hc : s.extractCheck = none) :
    exec .extract s = .next s.extractGlyphs := by
  simp only [exec_extract, hd, hc, Bool.false_eq_true, if_false]

/-- ERRCODE = 0 after an unspoiled EXTRACT says that all checks passed (R161). -/
theorem exec_extract_errcode_zero {s t : State} (hd : s.dirty = false) (h : exec .extract s = .next t)
    (he : t.status.errcode = 0) : s.extractCheck = none ∧ t = s.extractGlyphs := by
  cases hc : s.extractCheck with
  | some e =>
    rw [exec_extract_error hd hc] at h
    cases h
    exact absurd he e.code_ne_zero
  | none =>
    rw [exec_extract_success hd hc] at h
    cases h
    exact ⟨rfl, rfl⟩

/-- Settles O11: the checks in their order, and the row bytes by their columns. -/
theorem extractCommand : Obligations.ExtractCommand := by
  unfold Obligations.ExtractCommand
  refine ⟨rfl, fun s hd => ?_⟩
  split_ifs with h0 hsize h1
  · exact exec_extract_error hd (extractCheck_container h0)
  · exact exec_extract_error hd (extractCheck_size (eq_true_of_ne_false h0) hsize)
  · obtain ⟨hw, hh⟩ := not_or.mp hsize
    exact exec_extract_error hd (extractCheck_convert (eq_true_of_ne_false h0) (not_not.mp hw) (not_not.mp hh) h1)
  · obtain ⟨hw, hh⟩ := not_or.mp hsize
    have hpass : s.extractCheck = none :=
      extractCheck_pass (eq_true_of_ne_false h0) (not_not.mp hw) (not_not.mp hh) (eq_true_of_ne_false h1)
    refine ⟨_, exec_extract_success hd hpass, ?_, fun i hi r hr => ⟨rowByte s.pixByte i r, ?_, fun c hc => ?_, fun j => ?_⟩,
      fun a => s.extractGlyphs_read_off⟩
    · rw [State.extractGlyphs_eq]
    · rw [s.extractGlyphs_read (by omega), extractFn_at _ i hr]
    · rw [rowByte_column _ i r hc, ink_eq, pixIndex_eq]
    · exact rowByte_high _ i r

/-- Settles O13: the checks see the operands alone, and the row bytes the red bytes alone. The old GLY stays on a failure. -/
theorem extractSeesOnlyRedBytes : Obligations.ExtractSeesOnlyRedBytes := by
  unfold Obligations.ExtractSeesOnlyRedBytes
  intro s u hs hu h0 h1 hw hh hdraws hred hgly
  have hcheck : s.extractCheck = u.extractCheck := extractCheck_congr h0 h1 hw hh
  cases hc : u.extractCheck with
  | some e => exact ⟨_, _, exec_extract_error hs (hcheck.trans hc), exec_extract_error hu hc, rfl, hgly⟩
  | none =>
    refine ⟨_, _, exec_extract_success hs (hcheck.trans hc), exec_extract_success hu hc, by simp, fun k hk => ?_⟩
    have hpix : ∀ n < 320, s.pixByte (4 * n) = u.pixByte (4 * n) := fun n hn => pixByte_congr hdraws (hred n hn)
    rw [s.extractGlyphs_read hk, u.extractGlyphs_read hk, extractFn_congr hpix hk]

/-- Settles O14: GLY is the extracted nibbles, and PIX, which decides them, lies outside GLY. -/
theorem extractedBytesAreNibbles : Obligations.ExtractedBytesAreNibbles := by
  unfold Obligations.ExtractedBytesAreNibbles
  intro s t hd h he
  obtain ⟨hpass, rfl⟩ := exec_extract_errcode_zero hd h he
  refine ⟨fun k hk => ⟨_, s.extractGlyphs_read hk, extractFn_le _ k⟩, fun m hm => ?_⟩
  refine ⟨_, exec_extract_success (s := { s with mem := m }) hd hpass, fun k hk => ?_⟩
  have hpix (n : Nat) : ({ s with mem := m } : State).pixByte n = s.pixByte n := pixByte_congr rfl (hm _ (by omega))
  rw [State.extractGlyphs_read _ hk, State.extractGlyphs_read _ hk, extractFn_congr (fun n _ => hpix _) hk]

/-- Settles O17: the pixel's index is that of its own triple and, `pixIndex` being injective, of no other. -/
theorem pixelDecidesOneGlyphBit : Obligations.PixelDecidesOneGlyphBit := by
  unfold Obligations.PixelDecidesOneGlyphBit
  intro s v x y hx hy hd h0 h1 hw hh
  have hpass : s.extractCheck = none := extractCheck_pass h0 hw hh h1
  obtain ⟨hglyph, hrow, hcol⟩ := triple_of_pixel_bounds hx hy
  refine ⟨_, _, exec_extract_success hd hpass, exec_extract_success (s := { s with mem := _ }) hd hpass,
    ⟨_, State.extractGlyphs_read _ (by omega), ?_⟩, fun k hk j _ hother =>
    ⟨_, _, s.extractGlyphs_read hk, State.extractGlyphs_read _ hk, extractFn_bit_congr fun hj => ?_⟩⟩
  · have hink : (rowByte ({ s with mem := s.mem.write (0x800 + (y * 16 + x) * 4) v } : State).pixByte
        (glyphOf x y) (rowOf y)).getLsbD (3 - colOf x) = ink v := by
      rw [rowByte_column _ _ _ hcol, pixIndex_of_pixel hx, pixByte_write, if_pos rfl]
    rwa [← extractFn_at _ _ hrow] at hink
  · have hne : pixIndex (k / 5) (k % 5) (3 - j) ≠ (y * 16 + x) * 4 := by
      rw [← pixIndex_of_pixel hx]
      intro h
      obtain ⟨hi, hr, hc⟩ := pixIndex_inj (by omega) (by omega) hrow hcol h
      have hbyte : k = 5 * glyphOf x y + rowOf y := by omega
      have hbit : j = 3 - colOf x := by omega
      exact hother ⟨hbyte, hbit⟩
    rw [pixByte_write, if_neg hne]

end Sys2Proof.Machine

/-! ENCODE and DECODE (41_codec.md): each command's outcome, its frame, and what a second command reads of the first one's results
when the host only issues it and reads. -/

namespace Sys2Proof.Machine

/-! The pure functions (R140, R144). -/

/-- Row byte `r` of glyph `i` stands at byte `5i + r` of the frame (R140). -/
theorem encodeFn_at (g : Nat → Nat → Byte) (i : Nat) {r : Nat} (hr : r < 5) : encodeFn g (5 * i + r) = g i r := by
  have hglyph : (5 * i + r) / 5 = i := by omega
  have hrow : (5 * i + r) % 5 = r := by omega
  simp only [encodeFn, Config.glyphBytes, hglyph, hrow]

/-- A frame of the right length decodes to its bytes taken by fives (R144). -/
theorem decodeFn_ok (f : Nat → Byte) : decodeFn f 80 = .ok (fun i r => f (5 * i + r)) := rfl

/-- Encoding is laying the collection out as GLY does (R31, R140), so a frame's collection encodes to the frame (R149). -/
theorem encodeFn_frame (f : Nat → Byte) (k : Nat) : encodeFn (fun i r => f (5 * i + r)) k = f k := flatByte_frame f k

/-! GLY and FRM as the commands read them. -/

/-- A written byte of GLY is what ENCODE reads (R38). -/
theorem glyByte_of_read {s : State} {k : Nat} {b : Byte} (h : s.mem.read (0x100 + k) = some b) : s.glyByte k = b :=
  byteAt_of_read h k

/-- A written byte of FRM is what DECODE reads (R38). -/
theorem frmByte_of_read {s : State} {k : Nat} {b : Byte} (h : s.mem.read (0x200 + k) = some b) : s.frmByte k = b :=
  byteAt_of_read h k

/-! The commands in a clean busy window (R141, R145). -/

/-- ENCODE has one outcome (R142). -/
theorem exec_encode_clean {s : State} (hd : s.dirty = false) : exec .encode s = .next s.encodeFrame := by
  simp only [exec_encode, hd, Bool.false_eq_true, if_false]

/-- A wrong length ends DECODE in SCHEMA_MISMATCH (R145). -/
theorem exec_decode_error {s : State} (hd : s.dirty = false) (hl : s.frmLen ≠ 80) :
    exec .decode s = .next (s.raise .schemaMismatch) := by
  simp only [exec_decode, hd, Bool.false_eq_true, if_false, if_pos hl]

/-- With the length right DECODE writes the frame's collection (R145). -/
theorem exec_decode_success {s : State} (hd : s.dirty = false) (hl : s.frmLen = 80) :
    exec .decode s = .next (s.decodeGlyphs fun i r => s.frmByte (5 * i + r)) := by
  simp only [exec_decode, hd, Bool.false_eq_true, if_false, if_neg (not_not.mpr hl)]

/-- GLY after DECODE is FRM byte by byte (R145). -/
theorem decodeGlyphs_frame_read (s : State) {k : Nat} (hk : k < 80) :
    (s.decodeGlyphs fun i r => s.frmByte (5 * i + r)).mem.read (0x100 + k) = some (s.frmByte k) := by
  rw [State.decodeGlyphs_read _ _ hk, flatByte_frame]

/-- HINIB after DECODE is the high-nibble test of FRM's own bytes (R147). -/
theorem decodeGlyphs_frame_hinib (s : State) :
    (s.decodeGlyphs fun i r => s.frmByte (5 * i + r)).status.hinib = true ↔ ∃ k < 80, 0x0F < (s.frmByte k).toNat := by
  simp only [State.decodeGlyphs_status, Status.withHinib_hinib, anyHighNibble_iff, flatByte_frame]

/-- Settles O18: `State.encodeFrame` is the one outcome, and its fill covers FRM alone. -/
theorem encodeCommand : Obligations.EncodeCommand := by
  unfold Obligations.EncodeCommand
  refine ⟨rfl, fun s hd => ⟨_, exec_encode_clean hd, ?_, fun k => s.encodeFrame_read, fun a => s.encodeFrame_read_off⟩⟩
  rw [State.encodeFrame_eq]

/-- Settles O19: the length decides between SCHEMA_MISMATCH and `State.decodeGlyphs` of the frame's collection. -/
theorem decodeCommand : Obligations.DecodeCommand := by
  unfold Obligations.DecodeCommand
  refine ⟨rfl, fun s hd => ?_⟩
  split_ifs with hl
  · exact exec_decode_error hd hl
  · refine ⟨_, exec_decode_success hd (not_not.mp hl), ?_, decodeGlyphs_frame_hinib s, fun k => decodeGlyphs_frame_read s,
      fun a => s.decodeGlyphs_read_off _⟩
    rw [State.decodeGlyphs_eq]

/-! The frames (R154). -/

/-- An unspoiled DECODE that reports an error wrote no byte, and not HINIB (R154). -/
theorem exec_decode_failed {s t : State} (h : exec .decode s = .next t) (hd : s.dirty = false)
    (he : t.status.errcode ≠ 0) : t.mem = s.mem ∧ t.status.hinib = s.status.hinib := by
  by_cases hl : s.frmLen = 80
  · rw [exec_decode_success hd hl] at h
    cases h
    exact absurd (by simp) he
  · rw [exec_decode_error hd hl] at h
    cases h
    exact ⟨rfl, rfl⟩

/-- Settles O20: each command writes its own results and stores in its own memory, spoiled or not. -/
theorem codecWritesOnlyItsResults : Obligations.CodecWritesOnlyItsResults := by
  unfold Obligations.CodecWritesOnlyItsResults
  refine ⟨fun s t h => ?_, fun s t h => ?_⟩ <;> obtain ⟨-, -, hoverrun, hhazard⟩ := exec_status h
  · refine ⟨exec_frame h, hoverrun, hhazard, fun hd => exec_hinib (by decide) hd h, fun a ha => ?_⟩
    have hoff : ¬ storesAt .encode a := by simp only [storesAt]; omega
    exact exec_mem_off h hoff
  · refine ⟨exec_frame_of_not_encode (by decide) h, hoverrun, hhazard, exec_decode_failed h, fun a ha => ?_⟩
    have hoff : ¬ storesAt .decode a := by simp only [storesAt]; omega
    exact exec_mem_off h hoff

/-! Two commands with no host write between them but the one that issues the second. -/

/-- A command issued to an idle block runs, whatever the host reads around the issue, in a clean busy window with the memories and
FRM_LEN as the issue found them (R34, R68). -/
theorem engineStep_issued {s : State} (hb : s.status.busy = false) (i : Instr) {rs qs : List BusReq}
    (hr : ∀ r ∈ rs, r.we = false) (hq : ∀ r ∈ qs, r.we = false) :
    ∃ v : State, engineStep (((s.busAccesses rs).busAccess (writeReq .word 0x000 (encode i))).busAccesses qs) = exec i v ∧
      v.dirty = false ∧ v.mem = s.mem ∧ v.frmLen = s.frmLen := by
  obtain ⟨hlatch, hdirty, -, hmem, -, -, -, hlen⟩ := busAccesses_issue hb (encode i) hr hq
  exact ⟨_, engineStep_command ((congrArg decodeCmd hlatch).trans (decodeCmd_encode i)), hdirty, hmem, hlen⟩

/-- An ENCODE issued so copies the bytes of GLY to FRM and sets FRM_LEN (R141). -/
theorem encode_issued_copies {s : State} (hb : s.status.busy = false) {g : Nat → Byte}
    (hg : ∀ k < 80, s.mem.read (0x100 + k) = some (g k)) {rs qs : List BusReq}
    (hr : ∀ r ∈ rs, r.we = false) (hq : ∀ r ∈ qs, r.we = false) :
    ∃ u, engineStep (((s.busAccesses rs).busAccess (writeReq .word 0x000 0x00000002)).busAccesses qs) = .next u ∧
      u.frmLen = 80 ∧ ∀ k < 80, u.mem.read (0x200 + k) = some (g k) := by
  obtain ⟨v, hv, hd, hmem, -⟩ := engineStep_issued hb .encode hr hq
  refine ⟨_, hv.trans (exec_encode_clean hd), by rw [State.encodeFrame_eq], fun k hk => ?_⟩
  have hbyte : v.glyByte k = g k := glyByte_of_read (hmem ▸ hg k hk)
  rw [v.encodeFrame_read hk, hbyte]

/-- A DECODE issued so, with FRM_LEN right, succeeds and copies the bytes of FRM to GLY (R145). -/
theorem decode_issued_copies {s : State} (hb : s.status.busy = false) (hl : s.frmLen = 80) {f : Nat → Byte}
    (hf : ∀ k < 80, s.mem.read (0x200 + k) = some (f k)) {rs qs : List BusReq}
    (hr : ∀ r ∈ rs, r.we = false) (hq : ∀ r ∈ qs, r.we = false) :
    ∃ u, engineStep (((s.busAccesses rs).busAccess (writeReq .word 0x000 0x00000003)).busAccesses qs) = .next u ∧
      u.status.errcode = 0 ∧ ∀ k < 80, u.mem.read (0x100 + k) = some (f k) := by
  obtain ⟨v, hv, hd, hmem, hlen⟩ := engineStep_issued hb .decode hr hq
  refine ⟨_, hv.trans (exec_decode_success hd (hlen.trans hl)), by simp, fun k hk => ?_⟩
  have hbyte : v.frmByte k = f k := frmByte_of_read (hmem ▸ hf k hk)
  rw [decodeGlyphs_frame_read v hk, hbyte]

/-- Settles O21: ENCODE leaves `x` in FRM with the right length, and the DECODE copies it back. -/
theorem encodeThenDecodeIsIdentity : Obligations.EncodeThenDecodeIsIdentity := by
  unfold Obligations.EncodeThenDecodeIsIdentity
  intro s x hd hx
  have henc : exec .encode s = .next s.encodeFrame := exec_encode_clean hd
  have hlen : s.encodeFrame.frmLen = 80 := by rw [State.encodeFrame_eq]
  have hfrm : ∀ k < 80, s.encodeFrame.mem.read (0x200 + k) = some (x k) := fun k hk => by
    rw [s.encodeFrame_read hk, glyByte_of_read (hx k hk)]
  exact ⟨_, henc, fun rs qs => decode_issued_copies (exec_status henc).1 hlen hfrm⟩

/-- Settles O22: DECODE leaves `f` in GLY, and the ENCODE copies it back; the pure functions are two readings of one layout. -/
theorem decodeThenEncodeIsIdentity : Obligations.DecodeThenEncodeIsIdentity := by
  unfold Obligations.DecodeThenEncodeIsIdentity
  refine ⟨fun s f hd hl hf => ?_, fun f => ⟨_, decodeFn_ok f, fun k _ => encodeFn_frame f k⟩,
    fun g => ⟨_, decodeFn_ok _, fun i _ r hr => encodeFn_at g i hr⟩⟩
  have hdec := exec_decode_success hd hl
  refine ⟨_, hdec, fun rs qs => encode_issued_copies (exec_status hdec).1 fun k hk => ?_⟩
  rw [decodeGlyphs_frame_read s hk, frmByte_of_read (hf k hk)]

/-- Pixel (x, y) in the extracted collection: one bit of the byte of its glyph and row (R114, R116, R150). -/
theorem extractFn_pixel (p : Nat → Byte) {x y : Nat} (hx : x < 16) (hy : y < 20) :
    (extractFn p (5 * (y / 5 * 4 + x / 4) + y % 5)).getLsbD (3 - x % 4) = ink (p ((y * 16 + x) * 4)) := by
  obtain ⟨-, hrow, hcol⟩ := triple_of_pixel_bounds hx hy
  have hbit := rowByte_column p (glyphOf x y) (rowOf y) hcol
  rwa [pixIndex_of_pixel hx, ← extractFn_at p _ hrow] at hbit

/-- Settles O23: the ENCODE copies the extracted bytes, so a frame bit is the row byte's bit of its pixel. -/
theorem frameBitMap : Obligations.FrameBitMap := by
  unfold Obligations.FrameBitMap
  intro s t hd h he rs qs hr hq
  have hb : t.status.busy = false := (exec_status h).1
  obtain ⟨-, rfl⟩ := exec_extract_errcode_zero hd h he
  obtain ⟨u, hu, -, hfrm⟩ := encode_issued_copies hb (fun k => s.extractGlyphs_read) hr hq
  refine ⟨u, hu, fun x hx y hy => ⟨_, hfrm _ (by omega), ?_⟩, fun k hk => ⟨_, hfrm k hk, fun j => rowByte_high _ _ _⟩⟩
  rw [extractFn_pixel _ hx hy, ink_eq]

end Sys2Proof.Machine

/-! Errors and what outlasts them (60_exceptions.md): what a failing command leaves, what decides its code, what wakes an idle
block, and which bits of STATUS no access clears. -/

namespace Sys2Proof.Machine

/-! The outcome of a command in a clean busy window (R161, R165, R167). -/

/-- A command that reports an error did nothing but raise it (R166, R167). -/
theorem exec_failed {i : Instr} {s t : State} (hd : s.dirty = false) (h : exec i s = .next t)
    (he : t.status.errcode ≠ 0) : ∃ e, t = s.raise e := by
  rcases exec_cases h with ⟨-, hs, -⟩ | ⟨-, -, e, -, rfl⟩ | ⟨-, -, -, rfl⟩ | ⟨-, hs, -⟩ | ⟨-, -, rfl⟩ | ⟨-, hs, -⟩ |
    ⟨-, -, -, rfl⟩ | ⟨-, -, -, rfl⟩
  · rw [hd] at hs; cases hs
  · exact ⟨e, rfl⟩
  · exact absurd (by simp) he
  · rw [hd] at hs; cases hs
  · exact absurd (by simp) he
  · rw [hd] at hs; cases hs
  · exact ⟨.schemaMismatch, rfl⟩
  · exact absurd (by simp) he

/-- Settles O25: an error is raised by `State.raise`, which writes STATUS alone. -/
theorem errorsArePrecise : Obligations.ErrorsArePrecise := by
  unfold Obligations.ErrorsArePrecise
  intro i s t hd h he
  obtain ⟨e, rfl⟩ := exec_failed hd h he
  exact State.raise_eq s e

/-- EXTRACT's code is that of the first check that fails, 0 if none does (R118, R163). -/
theorem exec_extract_code {s t : State} (hd : s.dirty = false) (h : exec .extract s = .next t) :
    t.status.errcode = s.extractCheck.elim 0 ErrorKind.code := by
  cases hc : s.extractCheck with
  | some e =>
    rw [exec_extract_error hd hc] at h
    cases h
    rfl
  | none =>
    rw [exec_extract_success hd hc] at h
    cases h
    simp

/-- DECODE's code is SCHEMA_MISMATCH for a wrong length, else 0 (R145). -/
theorem exec_decode_code {s t : State} (hd : s.dirty = false) (h : exec .decode s = .next t) :
    t.status.errcode = if s.frmLen = 80 then 0 else ErrorKind.schemaMismatch.code := by
  split_ifs with hl
  · rw [exec_decode_success hd hl] at h
    cases h
    simp
  · rw [exec_decode_error hd hl] at h
    cases h
    rfl

/-- Settles O26: each code is a function of what the command checks, which the two states agree on. -/
theorem outcomeIsAFunctionOfTheOperands : Obligations.OutcomeIsAFunctionOfTheOperands := by
  unfold Obligations.OutcomeIsAFunctionOfTheOperands
  refine ⟨fun s u t v hs hu h0 h1 hw hh ht hv => ?_, fun s u t v hs hu hl ht hv => ?_⟩
  · rw [exec_extract_code hs ht, exec_extract_code hu hv, extractCheck_congr h0 h1 hw hh]
  · rw [exec_decode_code hs ht, exec_decode_code hu hv, hl]

/-! What wakes an idle block (R182). -/

/-- The one access that reaches CMD as a write is the 4-byte write at offset 0 (R23, R65). -/
theorem eq_writeReq_of_cmd {r : BusReq} (hw : r.we = true) (hc : checkAccess r.addr r.size = .ok (.reg .cmd)) :
    r = writeReq .word 0x000 r.wdata := by
  obtain ⟨we, size, addr, wdata⟩ := r
  obtain rfl : we = true := hw
  obtain rfl : addr = 0x000 := (target_cmd_iff hc).mp rfl
  obtain ⟨-, rfl, -, -⟩ | ⟨m, n, h, -⟩ := checkAccess_ok hc
  · rfl
  · cases h

/-- The lines that present the 4-byte write of CMD: a write line, or its port values (R98). -/
theorem line_of_writeCmd {line : HostLine} {v : Word} (h : line.request = some (writeReq .word 0x000 v)) :
    line = .write .word 0x000 v ∨ line = .ports { we := true, size := 2, addr := 0x000, wdata := v } := by
  cases line with
  | write n ofs w =>
    obtain ⟨-, hsize, hofs, hdata⟩ := BusReq.mk.inj (Option.some.inj h)
    cases n with
    | byte => exact absurd hsize (by decide)
    | half => exact absurd hsize (by decide)
    | word =>
      obtain rfl : ofs = 0x000 := hofs
      obtain rfl : w = v := hdata
      exact .inl rfl
  | read n ofs t => exact absurd (BusReq.mk.inj (Option.some.inj h)).1 Bool.false_ne_true
  | ports r => exact .inr (congrArg HostLine.ports (Option.some.inj h))
  | label l => cases h
  | bne t mask w l => cases h
  | check t w => cases h
  | platformReset => cases h

/-- A line that presents no access leaves STATUS as it is, or resets it (R98, R190). -/
theorem runLine_noAccess_status {line : HostLine} (h : line.request = none) (s : State) :
    (s.runLine line).status = s.status ∨ (s.runLine line).status = Status.reset := by
  cases line with
  | write n ofs v => cases h
  | read n ofs t => cases h
  | ports r => cases h
  | label l => exact .inl rfl
  | bne t mask v l => exact .inl rfl
  | check t v => exact .inl rfl
  | platformReset => exact .inr rfl

/-- A line that wakes an idle block presents the write of CMD, whose word LATCH then holds (R34, R182). -/
theorem runLine_wakes {s : State} {line : HostLine} (hb : s.status.busy = false)
    (h : (s.runLine line).status.busy = true) :
    line.request = some (writeReq .word 0x000 (s.runLine line).latch) := by
  cases hr : line.request with
  | none =>
    rcases runLine_noAccess_status hr s with hs | hs <;> rw [hs] at h
    · simp [hb] at h
    · cases h
  | some r =>
    obtain ⟨k, hline, -⟩ := runLine_access hr s
    rw [hline, State.hostAccess, afterAccess_status] at h
    obtain ⟨hw, hc⟩ := busAccess_wakes hb h
    have hlatch : (s.busAccess r).latch = r.wdata := by
      rw [eq_writeReq_of_cmd hw hc, busAccess_writeCmd]
      simp [issue_eq, hb, writeReq, writeLanes]
    rw [hline, State.hostAccess, afterAccess_latch, hlatch, ← eq_writeReq_of_cmd hw hc]

/-- Settles O9: an idle block's step is the host's, and of the host's lines only a CMD write wakes it. -/
theorem idleBlockWakesOnlyByIssue : Obligations.IdleBlockWakesOnlyByIssue := by
  unfold Obligations.IdleBlockWakesOnlyByIssue
  intro s hb
  refine ⟨fun hrun hend => ?_, fun t h ht => ⟨_, rfl, ?_⟩⟩
  · rw [step_not_due (by simp [hb]), tick_idle hb, hostStep, hrun]
    simp only [hend]
  · rcases step_cases h with ⟨hready, -⟩ | ⟨-, rfl, -⟩ | ⟨-, -, line, hline, rfl⟩
    · simp [State.engineReady, hb] at hready
    · simp [hb] at ht
    · rw [tick_idle hb] at ht ⊢
      rw [hline]
      exact (line_of_writeCmd (runLine_wakes hb ht)).imp (congrArg some) (congrArg some)

/-! The sticky bits, and STATUS under the accesses made while a command is in flight (R24, R171). -/

/-- A write while busy changes no bit of STATUS but OVERRUN, once its hazard is noted (R34, R69). -/
theorem writeTarget_status_inFlight {s : State} (hb : s.status.busy = true) (t : Target) (ofs : Nat) (v : Word) :
    (s.writeTarget t ofs v).status = { s.status with overrun := (s.writeTarget t ofs v).status.overrun } := by
  by_cases ht : t = .reg .cmd
  · subst ht
    rw [State.writeTarget, State.writeReg, issue_busy hb]
  · rw [(writeTarget_keeps ht s ofs v).1]

/-- An access while busy changes no bit of STATUS but OVERRUN and HAZARD (R171). -/
theorem busAccess_status_inFlight {s : State} (hb : s.status.busy = true) (r : BusReq) :
    (s.busAccess r).status = { s.status with overrun := (s.busAccess r).status.overrun,
                                             hazard := (s.busAccess r).status.hazard } := by
  rcases busAccess_cases s r with ⟨-, h⟩ | ⟨t, -, -, h⟩ | ⟨t, -, -, h⟩ <;> rw [h]
  · simp [State.refuseAccess]
  · have hwrite := writeTarget_status_inFlight (s := s.noteHazard t r.addr) (by simpa using hb) t r.addr.toNat (busValue r)
    rw [State.grantWrite, State.setBus_status, State.hostWrite, hwrite, noteHazard_frame]
  · rfl

/-- Only the reset line clears OVERRUN or HAZARD (R24, R171). -/
theorem runLine_sticky {s : State} {line : HostLine} (hl : line ≠ .platformReset) :
    (s.status.overrun = true → (s.runLine line).status.overrun = true) ∧
    (s.status.hazard = true → (s.runLine line).status.hazard = true) := by
  rcases runLine_cases s line with ⟨r, t, e⟩ | ⟨a, n, e, -⟩ | ⟨hreset, -⟩
  · rw [e, State.hostAccess, afterAccess_status]
    exact busAccess_sticky s r
  · rw [e]
    exact ⟨id, id⟩
  · exact absurd hreset hl

/-- Settles O30: a completion and a wait leave the sticky bits, a line other than the reset keeps them set, and an access made
while busy changes no other bit of STATUS. -/
theorem stickyBitsClearOnlyAtReset : Obligations.StickyBitsClearOnlyAtReset := by
  unfold Obligations.StickyBitsClearOnlyAtReset
  refine ⟨fun s t h hreset => ?_, fun s r hb => ?_⟩
  · rcases step_cases h with ⟨-, hengine⟩ | ⟨-, rfl, -⟩ | ⟨-, -, line, hline, rfl⟩
    · obtain ⟨-, -, hoverrun, hhazard⟩ := engineStep_status hengine
      exact ⟨hoverrun.trans, hhazard.trans⟩
    · rw [tick_status]
      exact ⟨id, id⟩
    · have hne : line ≠ .platformReset := fun he => hreset (he ▸ hline)
      simpa using runLine_sticky (s := s.tick) hne
  · obtain ⟨hbusy, hlatch, hdelay⟩ := busAccess_inFlight hb r
    have hstatus := busAccess_status_inFlight hb r
    exact ⟨hbusy, by rw [hstatus], by rw [hstatus], by rw [hstatus], hlatch, hdelay⟩

end Sys2Proof.Machine

/-! Reset and hazards (70_reset_and_hazards.md): the reset event, how a busy window starts and ends, what a hazardous write leaves
of the running command, and where a run stays. -/

namespace Sys2Proof.Machine

/-! What a hazardous write leaves (R203). -/

/-- A spoiled EXTRACT completes as `State.extractHazard`. -/
theorem exec_extract_spoiled {s : State} (h : s.dirty = true) : exec .extract s = .next s.extractHazard := by
  rw [exec_extract, if_pos h]

/-- A spoiled ENCODE completes as `State.encodeHazard`. -/
theorem exec_encode_spoiled {s : State} (h : s.dirty = true) : exec .encode s = .next s.encodeHazard := by
  rw [exec_encode, if_pos h]

/-- A spoiled DECODE completes as `State.decodeHazard`. -/
theorem exec_decode_spoiled {s : State} (h : s.dirty = true) : exec .decode s = .next s.decodeHazard := by
  rw [exec_decode, if_pos h]

/-- Two bits of a word, widened, are the word modulo 4. -/
theorem toNat_setWidth_two (v : Word) : ((v.setWidth 2).setWidth 4).toNat = v.toNat % 4 := by
  simp only [BitVec.toNat_setWidth]
  omega

/-- Settles O29: each spoiled completion written out, with the free bytes of its fill. -/
theorem hazardLeavesResultsUnderNoLaw : Obligations.HazardLeavesResultsUnderNoLaw := by
  unfold Obligations.HazardLeavesResultsUnderNoLaw
  intro s hd
  refine ⟨⟨_, exec_extract_spoiled hd, ?frame1, ?draws1, ?code1, fun _ => s.extractHazard_read,
      fun _ => s.extractHazard_read_off⟩,
    ⟨_, exec_encode_spoiled hd, ?frame2, ?draws2, fun _ => s.encodeHazard_read, fun _ => s.encodeHazard_read_off⟩,
    ⟨_, exec_decode_spoiled hd, ?frame3, ?draws3, ?code3, fun _ => s.decodeHazard_read,
      fun _ => s.decodeHazard_read_off⟩, ?reserved⟩
  case frame1 => simp only [State.extractHazard_eq]
  case draws1 => simp only [State.extractHazard_eq, le_refl]
  case code1 => simp only [State.extractHazard_eq, toNat_setWidth_two]
  case frame2 => simp only [State.encodeHazard_eq]
  case draws2 => simp only [State.encodeHazard_eq, le_refl]
  case frame3 => simp only [State.decodeHazard_eq]
  case draws3 => simp only [State.decodeHazard_eq, le_refl]
  case code3 => simp only [State.decodeHazard_eq]
  case reserved =>
    rw [completeReserved_spoiled hd]
    exact ⟨rfl, by simp⟩

/-! Runs by their first and by their last step. -/

/-- A run of one step more, with its first step known. -/
theorem run_succ_of_step {M : Host.Core} {s t : M.State} (h : M.step s = .next t) (k : Nat) :
    M.run (k + 1) s = M.run k t := by
  rw [Host.Core.run, h]

/-- A run of one step more, with all but its last step known. -/
theorem run_succ_of_run {M : Host.Core} {k : Nat} {s u : M.State} (h : M.run k s = .next u) :
    M.run (k + 1) s = M.step u := by
  induction k generalizing s with
  | zero =>
    cases h
    rw [Host.Core.run]
    cases M.step u <;> rfl
  | succ k ih =>
    obtain ⟨t, hstep, hrun⟩ := run_succ_next h
    rw [run_succ_of_step hstep, ih hrun]

/-! A command in flight completes (R198, R199). -/

/-- A step never stops while a command is in flight. -/
theorem step_inFlight_next {s : State} (hb : s.status.busy = true) : ∃ t, step s = .next t := by
  cases h : step s with
  | next t => exact ⟨t, rfl⟩
  | fault f =>
    obtain ⟨-, hidle⟩ := step_fault h
    simp [hb] at hidle
  | refused r => exact absurd h (step_not_refused s r)

/-- While a completion is not yet due, a step of a host that never resets brings it one step nearer and changes neither the
command in flight nor the program. -/
theorem step_inFlight {s : State} {n : Nat} (hb : s.status.busy = true) (hd : s.delay = n + 1)
    (hreset : ∀ line ∈ s.host.prog, line ≠ .platformReset) :
    ∃ t, step s = .next t ∧ t.status.busy = true ∧ t.latch = s.latch ∧ t.delay = n ∧ t.host.prog = s.host.prog := by
  obtain ⟨t, h⟩ := step_inFlight_next hb
  have htick : s.tick.delay = n := by simp [tick_busy hb, hd]
  refine ⟨t, h, ?_⟩
  rcases step_cases h with ⟨hready, -⟩ | ⟨-, rfl, -⟩ | ⟨-, -, line, hline, rfl⟩
  · simp [State.engineReady, hd] at hready
  · exact ⟨by rwa [tick_status], tick_latch s, htick, by rw [tick_host]⟩
  · obtain ⟨hbusy, hlatch, hdelay⟩ :=
      runLine_inFlight (s := s.tick) (by rwa [tick_status]) (hreset line (List.mem_of_getElem? hline))
    exact ⟨hbusy, hlatch.trans (tick_latch s), hdelay.trans htick, by rw [runLine_prog, tick_host]⟩

/-- After the steps of LATENCY that are left, the completion of the same command is due. -/
theorem run_to_completion_due {n : Nat} {s : State} (hb : s.status.busy = true) (hd : s.delay = n)
    (hreset : ∀ line ∈ s.host.prog, line ≠ .platformReset) :
    ∃ u : State, Host.Core.run Sys2Proof.core n s = .next u ∧ u.latch = s.latch ∧ u.status.busy = true ∧ u.delay = 0 := by
  induction n generalizing s with
  | zero => exact ⟨s, rfl, rfl, hb, hd⟩
  | succ n ih =>
    obtain ⟨t, hstep, htb, htl, htd, htp⟩ := step_inFlight hb hd hreset
    obtain ⟨u, hrun, hul, hub, hud⟩ := ih htb htd (htp ▸ hreset)
    exact ⟨u, (run_succ_of_step hstep n).trans hrun, hul.trans htl, hub, hud⟩

/-- Settles O31: the run reaches the state with the completion due, whose step is the engine's. -/
theorem everyAcceptedCommandCompletes : Obligations.EveryAcceptedCommandCompletes := by
  unfold Obligations.EveryAcceptedCommandCompletes
  intro s hb hreset
  obtain ⟨u, hrun, hlatch, hub, hud⟩ := run_to_completion_due hb rfl hreset
  obtain ⟨t, hengine⟩ := engineStep_next u
  obtain ⟨hbusy, hdone, -, -⟩ := engineStep_status hengine
  have hlast : Host.Core.run Sys2Proof.core (s.delay + 1) s = .next t :=
    (run_succ_of_run hrun).trans ((step_due hub hud).trans hengine)
  exact ⟨u, t, hrun, hlatch, hub, hud, hlast, hengine, hbusy, hdone⟩

/-! A finished run (R205). -/

/-- A run stays at a state that a step leaves as it is. -/
theorem run_of_step_self {M : Host.Core} {s : M.State} (h : M.step s = .next s) (k : Nat) : M.run k s = .next s := by
  induction k with
  | zero => rfl
  | succ k ih => rw [run_succ_of_step h, ih]

/-- A host whose stop would be on record has not stopped where no fault is recorded (R66). -/
theorem State.Inv.running {s : State} (hi : s.Inv) (hf : s.faultFree) : s.host.halted = none := by
  cases h : s.host.halted with
  | none => rfl
  | some f =>
    obtain ⟨hmem, -⟩ := hi.stopped f h
    rw [hf] at hmem
    cases hmem

/-- Settles O46: the idle block and the host past its last line leave the state as it is at each step. -/
theorem finishedRunStays : Obligations.FinishedRunStays := by
  unfold Obligations.FinishedRunStays
  intro s k hi ⟨hend, hidle, hfaults⟩
  obtain ⟨hstay, -⟩ := idleBlockWakesOnlyByIssue s hidle
  exact run_of_step_self (M := Sys2Proof.core) (hstay (hi.running hfaults) (List.getElem?_eq_none hend)) k

/-! The start of a busy window, and the reset event. -/

/-- Settles O6: the access is an accepted `State.issue`. -/
theorem acceptedIssueStartsACleanWindow : Obligations.AcceptedIssueStartsACleanWindow := by
  unfold Obligations.AcceptedIssueStartsACleanWindow
  intro s w hidle
  rw [busAccess_writeCmd, issue_eq, if_neg (by simp [hidle])]
  exact ⟨rfl, rfl, Nat.lt_succ_self s.draws⟩

/-- Settles O48: with no completion due the step is the host's, and its line is the reset event. -/
theorem resetEvent : Obligations.ResetEvent := by
  unfold Obligations.ResetEvent
  intro s hdue hrun hline
  have hstep : step s = .next s.tick.hostReset := hostLineRunsUntilCompletionIsDue s _ hdue hrun hline
  have hlatch : s.tick.hostReset.latch = Config.freeWord s.draws := congrArg Config.freeWord (tick_draws s)
  exact ⟨_, hstep, rfl, rfl, rfl, rfl, rfl, fun _ => rfl, hlatch, rfl⟩

end Sys2Proof.Machine
